-- ==== Sys2Proof/Word.lean ====
section
/-! DEFINITION. The word types of the block: bytes, command words, cursor registers, and a glyph. -/

namespace Sys2Proof

/-- A `u8`: one storage element of any of the block's memories (20_memory.md R31, R34). -/
abbrev Byte := BitVec 8

/-- One command word (30_encoding.md R47). -/
abbrev CmdWord := BitVec 64

/-- A cursor register, an `i12`: signed 12-bit two's complement, read with `BitVec.toInt` (10_state.md R15). -/
abbrev CursorReg := BitVec 12

/-- A glyph: five column bytes, `g0` the leftmost; bit `k` of a byte is row `k`, bit 0 the top (10_state.md R14). -/
structure Glyph where
  g0 : Byte
  g1 : Byte
  g2 : Byte
  g3 : Byte
  g4 : Byte
  deriving DecidableEq, Repr, Inhabited

end Sys2Proof
end

