-- ==== Sys2Proof/Config.lean ====
section
/-! DEFINITION. What is fixed for the hardware: the parameters of 00_scope.md R6, the three open parameters of R7, and the free values of the ports. -/

namespace Sys2Proof

/-- `WIDTH`, pixel columns (00_scope.md R6). -/
@[simp] abbrev Config.width : Nat := 84

/-- `HEIGHT`, pixel rows (00_scope.md R6). -/
@[simp] abbrev Config.height : Nat := 48

/-- `FB_BYTES`, bytes of the pixel array: six pages of 84 columns (00_scope.md R6). -/
@[simp] abbrev Config.fbBytes : Nat := 504

/-- `GLYPH_W`, glyph columns (00_scope.md R6). -/
@[simp] abbrev Config.glyphW : Nat := 5

/-- `GLYPH_H`, glyph rows (00_scope.md R6). -/
@[simp] abbrev Config.glyphH : Nat := 7

/-- `CUSTOM_SLOTS`, custom glyph slots, codes 0x00 to 0x1F (00_scope.md R6). -/
@[simp] abbrev Config.customSlots : Nat := 32

/-- Bytes of the custom glyph store (20_memory.md R31). -/
@[simp] abbrev Config.gramBytes : Nat := 160

/-- `FIRST_PRINTABLE`, first code of the built-in table (00_scope.md R6). -/
@[simp] abbrev Config.firstPrintable : Nat := 0x20

/-- `CODE_LIMIT`: codes at or above this are rejected (00_scope.md R6). -/
@[simp] abbrev Config.codeLimit : Nat := 0x80

/-- `FONT_ROM`, the OPEN built-in glyph table: entry `e` is the glyph of code `0x20 + e` (00_scope.md R7, 10_state.md R17).
No value of it is known: log entry 4. -/
opaque Config.fontRom : Fin 96 → Glyph

/-- `CMD_SET_COL0`, the OPEN display command byte for column 0 (00_scope.md R7, 43_serializer.md R94): log entry 5. -/
opaque Config.cmdSetCol0 : Byte

/-- `CMD_SET_ROW0`, the OPEN display command byte for row 0 (00_scope.md R7, 43_serializer.md R94): log entry 5. -/
opaque Config.cmdSetRow0 : Byte

/-- FREE VALUE: what `dbg_pixel` shows in a cycle in which `BUSY` is 1 (10_state.md R29), applied to the number of the
cycle and the address read: log entry 10. -/
opaque Config.busyPixel : Nat → BitVec 7 → BitVec 6 → Bool

/-- FREE VALUE: how many cycles a command stays busy beside those its stream items take (70_reset_and_hazards.md R124),
applied to the number of the cycle that accepts it: log entry 11. -/
opaque Config.busyCycles : Nat → Nat

end Sys2Proof
end

