-- ==== Sys2Proof/Syntax.lean ====
section
/-! DEFINITION. The commands, one constructor per row of spec/opcode_table.json, with operands as the mathematical values 30_encoding.md R49 gives them. -/

namespace Sys2Proof

/-- A command with its operands (30_encoding.md R50, R49). Coordinates and the radius are `Int` (an encoded one lies in
-2048 to 2047), `scale` and `code` are `Nat` (an encoded one lies in 0 to 255); WellFormed.lean holds those bounds. -/
inductive Instr where
  /-- CLEAR (40_framebuffer_ops.md R63). -/
  | clear
  /-- SET_PIXEL (40_framebuffer_ops.md R64); `v` is the pixel value, true sets. -/
  | setPixel (x y : Int) (v : Bool)
  /-- SET_CURSOR (40_framebuffer_ops.md R65). -/
  | setCursor (x y : Int)
  /-- WRITE_CHAR (42_text_engine.md R81). -/
  | writeChar (code scale : Nat)
  /-- WRITE_CHAR_OPP (42_text_engine.md R83). -/
  | writeCharOpp (code scale : Nat)
  /-- REGISTER_GLYPH (42_text_engine.md R88). -/
  | registerGlyph (code : Nat) (g : Glyph)
  /-- DRAW_LINE (41_rasterizer.md R71). -/
  | drawLine (x1 y1 x2 y2 : Int)
  /-- DRAW_RECT (41_rasterizer.md R73). -/
  | drawRect (x1 y1 x2 y2 : Int)
  /-- DRAW_CIRCLE (41_rasterizer.md R75). -/
  | drawCircle (x0 y0 r : Int)
  /-- RENDER (43_serializer.md R91). -/
  | render
  deriving DecidableEq, Repr

/-- Why a word is no command (30_encoding.md R58 names the two ways). -/
inductive DecodeError where
  /-- The opcode is none of the ten of 30_encoding.md R50. -/
  | unknownOpcode (opcode : Byte)
  /-- The opcode is one of the ten and a reserved bit of its format (30_encoding.md R48) is not 0. -/
  | reservedBitSet (opcode : Byte)
  deriving DecidableEq, Repr

end Sys2Proof
end

