-- ==== Sys2Proof/WellFormed.lean ====
section
/-! DEFINITION. Which commands can be encoded: the operand ranges of 30_encoding.md R49, which an assembler must enforce (R60). -/

namespace Sys2Proof

/-- The range of `i12` (00_scope.md R8, 30_encoding.md R49). -/
def isI12 (c : Int) : Bool := decide (-2048 ≤ c) && decide (c ≤ 2047)

/-- The range of `u8` (00_scope.md R8, 30_encoding.md R49). -/
def isU8 (n : Nat) : Bool := decide (n < 256)

/-- Every operand lies in the range its field can hold (30_encoding.md R49, R60). The pixel value and the glyph bytes have
types that hold nothing else, so they need no check. -/
def Instr.wellFormed : Instr → Bool
  | .clear => true
  | .setPixel x y _ => isI12 x && isI12 y
  | .setCursor x y => isI12 x && isI12 y
  | .writeChar code scale => isU8 code && isU8 scale
  | .writeCharOpp code scale => isU8 code && isU8 scale
  | .registerGlyph code _ => isU8 code
  | .drawLine x1 y1 x2 y2 => isI12 x1 && isI12 y1 && isI12 x2 && isI12 y2
  | .drawRect x1 y1 x2 y2 => isI12 x1 && isI12 y1 && isI12 x2 && isI12 y2
  | .drawCircle x0 y0 r => isI12 x0 && isI12 y0 && isI12 r
  | .render => true

end Sys2Proof
end

