-- ==== Sys2Proof/Decode.lean ====
section
/-! DEFINITION. The opcode table of 30_encoding.md R50 with the operand fields of R49, the decoder R62 describes, and the encoder, its inverse on legal operands. -/

namespace Sys2Proof

/-! ## Fields (30_encoding.md R47, R49) -/

/-- `sext_12` of the 12-bit field whose lowest bit is bit `lo` (00_scope.md R8). -/
def sext12At (w : CmdWord) (lo : Nat) : Int := (w.extractLsb' lo 12).toInt

/-- The byte field whose lowest bit is bit `lo`. -/
def byteAt (w : CmdWord) (lo : Nat) : Byte := w.extractLsb' lo 8

/-- `zext_8` of the byte field whose lowest bit is bit `lo` (00_scope.md R8). -/
def zext8At (w : CmdWord) (lo : Nat) : Nat := (byteAt w lo).toNat

/-- `opcode = w[63:56]`. -/
def opcodeOf (w : CmdWord) : Byte := byteAt w 56

/-- Field `a`, the first coordinate. -/
def fieldA (w : CmdWord) : Int := sext12At w 36

/-- Field `b`, the second coordinate. -/
def fieldB (w : CmdWord) : Int := sext12At w 24

/-- Field `c`, the third coordinate or the radius. -/
def fieldC (w : CmdWord) : Int := sext12At w 12

/-- Field `d`, the fourth coordinate. -/
def fieldD (w : CmdWord) : Int := sext12At w 0

/-- `v = w[48]`. -/
def fieldV (w : CmdWord) : Bool := w.getLsbD 48

/-- `scale = w[55:48]`. -/
def fieldScale (w : CmdWord) : Nat := zext8At w 48

/-- `code = w[47:40]`. -/
def fieldCode (w : CmdWord) : Nat := zext8At w 40

/-- `g0` to `g4`. -/
def fieldGlyph (w : CmdWord) : Glyph := ⟨byteAt w 32, byteAt w 24, byteAt w 16, byteAt w 8, byteAt w 0⟩

/-! ## The opcode table (30_encoding.md R50) -/

/-- One row of the opcode table: `pattern` is its `match`; `operands` assembles the command by R49. -/
structure OpcodeRow where
  mnemonic : String
  pattern : CmdWord
  mask : CmdWord
  operands : CmdWord → Instr

/-- "a word `w` is the command of a row exactly when `w & mask = match`" (30_encoding.md R50). -/
def OpcodeRow.hits (row : OpcodeRow) (w : CmdWord) : Bool := w &&& row.mask == row.pattern

/-- The ten rows, in the order of 30_encoding.md R50. -/
def opcodeTable : List OpcodeRow := [
  ⟨"CLEAR", 0x0100000000000000, 0xFFFFFFFFFFFFFFFF, fun _ => .clear⟩,
  ⟨"SET_PIXEL", 0x0200000000000000, 0xFFFE000000FFFFFF, fun w => .setPixel (fieldA w) (fieldB w) (fieldV w)⟩,
  ⟨"SET_CURSOR", 0x0300000000000000, 0xFFFF000000FFFFFF, fun w => .setCursor (fieldA w) (fieldB w)⟩,
  ⟨"WRITE_CHAR", 0x1000000000000000, 0xFF0000FFFFFFFFFF, fun w => .writeChar (fieldCode w) (fieldScale w)⟩,
  ⟨"WRITE_CHAR_OPP", 0x1100000000000000, 0xFF0000FFFFFFFFFF, fun w => .writeCharOpp (fieldCode w) (fieldScale w)⟩,
  ⟨"REGISTER_GLYPH", 0x1200000000000000, 0xFFFF000000000000, fun w => .registerGlyph (fieldCode w) (fieldGlyph w)⟩,
  ⟨"DRAW_LINE", 0x2000000000000000, 0xFFFF000000000000,
    fun w => .drawLine (fieldA w) (fieldB w) (fieldC w) (fieldD w)⟩,
  ⟨"DRAW_RECT", 0x2100000000000000, 0xFFFF000000000000,
    fun w => .drawRect (fieldA w) (fieldB w) (fieldC w) (fieldD w)⟩,
  ⟨"DRAW_CIRCLE", 0x2200000000000000, 0xFFFF000000000FFF, fun w => .drawCircle (fieldA w) (fieldB w) (fieldC w)⟩,
  ⟨"RENDER", 0x3000000000000000, 0xFFFFFFFFFFFFFFFF, fun _ => .render⟩]

/-! ## Decoding (30_encoding.md R62) -/

/-- Which of the two ways of 30_encoding.md R58 a word that matches no row is illegal. -/
def decodeError (w : CmdWord) : DecodeError :=
  if opcodeTable.any (fun row => opcodeOf row.pattern == opcodeOf w) then .reservedBitSet (opcodeOf w)
  else .unknownOpcode (opcodeOf w)

/-- The decoder: total on all 64-bit words, dependent on no state (30_encoding.md R59, R62). -/
def decode (w : CmdWord) : Except DecodeError Instr :=
  match opcodeTable.find? (fun row => row.hits w) with
  | some row => .ok (row.operands w)
  | none => .error (decodeError w)

/-- The decoder on a word of spec/opcode_table.json, whose bit numbering is that of the word at the port
(30_encoding.md R47). -/
def decodeTableWord (nbits w : Nat) : Option Instr := (decode (BitVec.ofNat 64 (w % 2 ^ nbits))).toOption

/-! ## Encoding, format by format (30_encoding.md R51 to R57) -/

/-- A coordinate or radius as its `i12` field. -/
def i12 (c : Int) : BitVec 12 := BitVec.ofInt 12 c

/-- A `u8` operand as its byte field. -/
def u8 (n : Nat) : Byte := BitVec.ofNat 8 n

/-- Format N (R51). -/
def formatN (opcode : Byte) : CmdWord := opcode ++ 0#56

/-- Format XYV (R53). -/
def formatXYV (opcode : Byte) (x y : Int) (v : Bool) : CmdWord :=
  opcode ++ 0#7 ++ BitVec.ofBool v ++ i12 x ++ i12 y ++ 0#24

/-- Format XY (R52). -/
def formatXY (opcode : Byte) (x y : Int) : CmdWord := opcode ++ 0#8 ++ i12 x ++ i12 y ++ 0#24

/-- Format Q (R54). -/
def formatQ (opcode : Byte) (x1 y1 x2 y2 : Int) : CmdWord := opcode ++ 0#8 ++ i12 x1 ++ i12 y1 ++ i12 x2 ++ i12 y2

/-- Format C (R55). -/
def formatC (opcode : Byte) (x0 y0 r : Int) : CmdWord := opcode ++ 0#8 ++ i12 x0 ++ i12 y0 ++ i12 r ++ 0#12

/-- Format T (R56). -/
def formatT (opcode : Byte) (code scale : Nat) : CmdWord := opcode ++ u8 scale ++ u8 code ++ 0#40

/-- Format G (R57). -/
def formatG (opcode : Byte) (code : Nat) (g : Glyph) : CmdWord :=
  opcode ++ 0#8 ++ u8 code ++ g.g0 ++ g.g1 ++ g.g2 ++ g.g3 ++ g.g4

/-- The command's name in spec/opcode_table.json (30_encoding.md R50). -/
def Instr.mnemonic : Instr → String
  | .clear => "CLEAR"
  | .setPixel _ _ _ => "SET_PIXEL"
  | .setCursor _ _ => "SET_CURSOR"
  | .writeChar _ _ => "WRITE_CHAR"
  | .writeCharOpp _ _ => "WRITE_CHAR_OPP"
  | .registerGlyph _ _ => "REGISTER_GLYPH"
  | .drawLine _ _ _ _ => "DRAW_LINE"
  | .drawRect _ _ _ _ => "DRAW_RECT"
  | .drawCircle _ _ _ => "DRAW_CIRCLE"
  | .render => "RENDER"

/-- The encoder: "place the opcode and the fields of the format, zero elsewhere" (30_encoding.md R62). -/
def encode : Instr → CmdWord
  | .clear => formatN 0x01
  | .setPixel x y v => formatXYV 0x02 x y v
  | .setCursor x y => formatXY 0x03 x y
  | .writeChar code scale => formatT 0x10 code scale
  | .writeCharOpp code scale => formatT 0x11 code scale
  | .registerGlyph code g => formatG 0x12 code g
  | .drawLine x1 y1 x2 y2 => formatQ 0x20 x1 y1 x2 y2
  | .drawRect x1 y1 x2 y2 => formatQ 0x21 x1 y1 x2 y2
  | .drawCircle x0 y0 r => formatC 0x22 x0 y0 r
  | .render => formatN 0x30

end Sys2Proof
end

