-- ==== Sys2Proof/Machine/State.lean ====
section
/-! DEFINITION. The state of the block, as plain data; its reset value; the reasons a step can stop. -/

namespace Sys2Proof.Machine

/-- Bytes by index: strictly rising indices, no entry equal to what an unlisted index reads as (Machine/Ops.lean,
`Memory.unlisted` and `Memory.wf`). -/
abbrev Memory := List Host.Cell

/-- One item of the output stream; `dc` false marks a command byte, true a data byte (10_state.md R23). -/
structure TxItem where
  dc : Bool
  data : Byte
  deriving DecidableEq, Repr

/-- One thing the host does to the block between commands: it presents a command word (10_state.md R26) or asserts reset
(70_reset_and_hazards.md R111). -/
inductive HostEvent where
  | word (w : CmdWord)
  | reset
  deriving DecidableEq, Repr

/-- The conditions of 60_exceptions.md R99. -/
inductive Condition where
  | outOfBounds
  | illegalWord
  | rejectedCode
  | rejectedRegistration
  | cursorOverflow
  deriving DecidableEq, Repr

/-- The two glyph orientations (42_text_engine.md R90). -/
inductive Orientation where
  | normal
  | transposed
  deriving DecidableEq, Repr

/-- One plot a command makes: the operands of `Plot(x, y, v)` (20_memory.md R36). -/
structure Dot where
  x : Int
  y : Int
  v : Bool
  deriving DecidableEq, Repr

/-- The architectural state (10_state.md section 1 and R19), and, in `inputs`, what the host will do next. -/
structure State where
  /-- `FB`, the pixel array (10_state.md R13). -/
  fb : Memory
  /-- `cursor_x` (10_state.md R15). -/
  cursorX : CursorReg
  /-- `cursor_y` (10_state.md R15). -/
  cursorY : CursorReg
  /-- `GRAM`; byte `c` of slot `s` at index `5*s + c` (10_state.md R18). -/
  gram : Memory
  /-- `GVALID`; bit `s` for slot `s` (10_state.md R18). -/
  gvalid : BitVec 32
  /-- `STATUS` bit 0 (10_state.md R22). -/
  busy : Bool
  /-- `STATUS` bit 1 (10_state.md R20). -/
  errOob : Bool
  /-- `STATUS` bit 2 (10_state.md R21). -/
  errIll : Bool
  /-- `TX`, oldest item first (10_state.md R23). -/
  tx : List TxItem
  /-- The model's own field: what the host does next, first thing first (70_reset_and_hazards.md R112; log entry 3). -/
  inputs : List HostEvent
  deriving DecidableEq, Repr

/-- The state after reset (10_state.md R30). The bytes of `gram`, which R30 leaves unspecified, are 0x00 (log entry 2). -/
def State.reset : State where
  fb := []
  cursorX := 0
  cursorY := 0
  gram := []
  gvalid := 0
  busy := false
  errOob := false
  errIll := false
  tx := []
  inputs := []

/-- The reasons the machine stops with a fault: there is none. "No condition stops a command" (60_exceptions.md R98), so
no definition raises one (safe: nothing is left out by it; log entry 15). -/
inductive Fault where
  deriving DecidableEq, Repr

/-- The reasons a meaning is refused. -/
inductive Refusal where
  /-- Raised by `exec` for a command that has no meaning yet; no command of this model is left so (safe). -/
  | notModelled (mnemonic : String)
  deriving DecidableEq, Repr

end Sys2Proof.Machine
end

