-- ==== Sys2Proof/Machine/Flags.lean ====
section
/-! DEFINITION. The status register and the one operation that records a condition (10_state.md R19 to R22, 60_exceptions.md R98 to R107). -/

namespace Sys2Proof.Machine

/-- `raise <Condition>` (60_exceptions.md R100): set the condition's sticky flag, if R99 gives it one, and go on. It is all
there is to an exception here: nothing is saved and control goes nowhere (R106). -/
def raise (c : Condition) (s : State) : State :=
  match c with
  | .outOfBounds => { s with errOob := true }
  | .illegalWord => { s with errIll := true }
  | .rejectedCode => s
  | .rejectedRegistration => s
  | .cursorOverflow => s

/-- `STATUS`: bit 0 `BUSY`, bit 1 `ERR_OOB`, bit 2 `ERR_ILL` (10_state.md R19). -/
def status (s : State) : BitVec 3 := BitVec.ofBool s.errIll ++ BitVec.ofBool s.errOob ++ BitVec.ofBool s.busy

end Sys2Proof.Machine
end

