-- ==== Sys2Proof/Machine/Ops.lean ====
section
/-! DEFINITION. The named operations over the state: memory bytes, pixels, the cursor, the glyph store, the output stream, reset and command acceptance. -/

namespace Sys2Proof.Machine

/-! ## Bytes (00_scope.md R10, 20_memory.md R34) -/

/-- What an unlisted index reads as: FB's reset content (10_state.md R30; log entries 2 and 8). -/
@[simp] abbrev Memory.unlisted : Byte := 0

/-- `MemRead(addr, 1)`. -/
def Memory.read : Memory → Nat → Byte
  | [], _ => Memory.unlisted
  | (k, b) :: rest, a => if k = a then b else Memory.read rest a

/-- `MemWrite(addr, 1, v)`, keeping the canonical form. -/
def Memory.write : Memory → Nat → Byte → Memory
  | [], a, b => if b = Memory.unlisted then [] else [(a, b)]
  | (k, c) :: rest, a, b =>
    if a < k then (if b = Memory.unlisted then (k, c) :: rest else (a, b) :: (k, c) :: rest)
    else if a = k then (if b = Memory.unlisted then rest else (a, b) :: rest)
    else (k, c) :: Memory.write rest a b

/-- The canonical form from index `lo` on: rising indices below `size`, no listed byte equal to an unlisted one. -/
def Memory.wfFrom (size : Nat) : Nat → Memory → Bool
  | _, [] => true
  | lo, (k, b) :: rest => decide (lo ≤ k) && decide (k < size) && (b != Memory.unlisted) && Memory.wfFrom size (k + 1) rest

/-- The canonical form of a memory of `size` bytes. -/
def Memory.wf (size : Nat) (m : Memory) : Bool := Memory.wfFrom size 0 m

/-! ## Pixels (20_memory.md R33, R36, R37) -/

/-- `0 <= x < 84` and `0 <= y < 48`. -/
def inBounds (x y : Int) : Bool := decide (0 ≤ x) && decide (x < Config.width) && decide (0 ≤ y) && decide (y < Config.height)

/-- The byte that holds pixel `(x, y)`: `(y / 8) * 84 + x` (20_memory.md R33). -/
def fbIndex (x y : Int) : Nat := y.toNat / 8 * Config.width + x.toNat

/-- The bit of that byte: `y % 8` (20_memory.md R33). -/
def fbBit (y : Int) : Nat := y.toNat % 8

/-- A page byte with bit `k` set or cleared: `old | (1 << k)` or `old & ~(1 << k) & 0xFF` (20_memory.md R36). -/
def withBit (old : Byte) (k : Nat) (v : Bool) : Byte :=
  if v then old ||| (1#8 <<< k) else old &&& ~~~(1#8 <<< k)

/-- `Plot(x, y, v)`: the only single-pixel write (20_memory.md R36). -/
def plot (x y : Int) (v : Bool) (s : State) : State :=
  if inBounds x y then
    { s with fb := Memory.write s.fb (fbIndex x y) (withBit (Memory.read s.fb (fbIndex x y)) (fbBit y) v) }
  else raise .outOfBounds s

/-- `Pixel(x, y)` (20_memory.md R37). -/
def pixel (x y : Int) (s : State) : Bool :=
  if inBounds x y then (Memory.read s.fb (fbIndex x y)).getLsbD (fbBit y) else false

/-- A command's plots, in their order. -/
def plotAll (dots : List Dot) (s : State) : State := dots.foldl (fun s d => plot d.x d.y d.v s) s

/-- The dots of a point list, each with value 1: vector primitives set pixels and never clear them (41_rasterizer.md R69). -/
def setDots (points : List (Int × Int)) : List Dot := points.map fun p => ⟨p.1, p.2, true⟩

/-- All 504 bytes of FB to 0x00 (40_framebuffer_ops.md R63): in canonical form, nothing is listed (log entry 21). -/
def clearFb (s : State) : State := { s with fb := [] }

/-! ## The cursor (10_state.md R15) -/

/-- Write both cursor registers, as `i12`. -/
def moveCursor (x y : Int) (s : State) : State := { s with cursorX := BitVec.ofInt 12 x, cursorY := BitVec.ofInt 12 y }

/-! ## The custom glyph store (10_state.md R18, 20_memory.md R35) -/

/-- The index of `GRAM[slot][col]`. -/
def gramIndex (slot col : Nat) : Nat := 5 * slot + col

/-- `GRAM[slot]`. -/
def gramGlyph (slot : Nat) (s : State) : Glyph :=
  ⟨Memory.read s.gram (gramIndex slot 0), Memory.read s.gram (gramIndex slot 1), Memory.read s.gram (gramIndex slot 2),
    Memory.read s.gram (gramIndex slot 3), Memory.read s.gram (gramIndex slot 4)⟩

/-- The five byte writes of REGISTER_GLYPH (42_text_engine.md R88). -/
def writeGlyphBytes (m : Memory) (slot : Nat) (g : Glyph) : Memory :=
  Memory.write (Memory.write (Memory.write (Memory.write (Memory.write m (gramIndex slot 0) g.g0) (gramIndex slot 1) g.g1)
    (gramIndex slot 2) g.g2) (gramIndex slot 3) g.g3) (gramIndex slot 4) g.g4

/-- The five byte writes, and the slot's valid bit set (42_text_engine.md R88). -/
def storeGlyph (slot : Nat) (g : Glyph) (s : State) : State :=
  { s with gram := writeGlyphBytes s.gram slot g, gvalid := s.gvalid ||| BitVec.twoPow 32 slot }

/-! ## The output stream (43_serializer.md R92) -/

/-- `Emit(dc, b)` for each item of a list, in order. -/
def emitAll (items : List TxItem) (s : State) : State := { s with tx := s.tx ++ items }

/-! ## Reset and the command port (70_reset_and_hazards.md R111, 10_state.md R22, R26) -/

/-- The reset event; `rest` is what the host does afterwards. -/
def resetBlock (rest : List HostEvent) : State := { State.reset with inputs := rest }

/-- `cmd_ready` outside reset: 1 exactly when `BUSY` is 0 (10_state.md R26). -/
def cmdReady (s : State) : Bool := !s.busy

/-- Acceptance of a word sets `BUSY` (10_state.md R19, R22); `rest` is what the host does afterwards. -/
def accept (rest : List HostEvent) (s : State) : State := { s with inputs := rest, busy := true }

/-- Completion of a command clears `BUSY` (10_state.md R19, R22). -/
def complete (s : State) : State := { s with busy := false }

/-- A word presented as the host's very next act to an idle block. -/
def presentNext (w : CmdWord) (s : State) : State := { s with inputs := .word w :: s.inputs, busy := false }

end Sys2Proof.Machine
end

