-- ==== Sys2Proof/Machine/Operands.lean ====
section
/-! DEFINITION. What the commands compute from their operands: rounding, glyph lookup and the two cell maps. -/

namespace Sys2Proof.Machine

/-- `RHA(n, d)`, for `d > 0`: `n/d` rounded to nearest, ties away from zero (00_scope.md R9). -/
def roundHalfAway (n d : Int) : Int := n.sign * ((2 * (n.natAbs : Int) + d) / (2 * d))

/-- Column byte `col` of a glyph (10_state.md R14); no rule asks for a column above 4 (20_memory.md R38). -/
def glyphColumn (g : Glyph) : Nat → Byte
  | 0 => g.g0
  | 1 => g.g1
  | 2 => g.g2
  | 3 => g.g3
  | _ => g.g4

/-- `ROM[entry]` (10_state.md R17); the lookup admits entries 0 to 95 only (20_memory.md R38). -/
def romGlyph (entry : Nat) : Glyph := Config.fontRom (Fin.ofNat 96 entry)

/-- `Glyph(code)` (42_text_engine.md R79). -/
def glyphLookup (code : Nat) (s : State) : Option Glyph :=
  if Config.codeLimit ≤ code then none
  else if Config.firstPrintable ≤ code then some (romGlyph (code - Config.firstPrintable))
  else if s.gvalid.getLsbD code then some (gramGlyph code s)
  else some (romGlyph 0)

/-- `NormalBit(g, s, x, y) = (g[x / s] >> (y / s)) & 1` (42_text_engine.md R80). -/
def normalBit (g : Glyph) (scale x y : Nat) : Bool := (glyphColumn g (x / scale)).getLsbD (y / scale)

/-- `TransposedBit(g, s, x, y) = (g[4 - y / s] >> (x / s)) & 1` (42_text_engine.md R82). -/
def transposedBit (g : Glyph) (scale x y : Nat) : Bool := (glyphColumn g (4 - y / scale)).getLsbD (x / scale)

/-- The cell bit by orientation (42_text_engine.md R90). -/
def cellBit : Orientation → Glyph → Nat → Nat → Nat → Bool
  | .normal => normalBit
  | .transposed => transposedBit

/-- The cell's width in pixels by orientation (42_text_engine.md R90). -/
def cellWidth : Orientation → Nat → Nat
  | .normal, scale => Config.glyphW * scale
  | .transposed, scale => Config.glyphH * scale

/-- The cell's height in pixels by orientation (42_text_engine.md R90). -/
def cellHeight : Orientation → Nat → Nat
  | .normal, scale => Config.glyphH * scale
  | .transposed, scale => Config.glyphW * scale

end Sys2Proof.Machine
end

