-- ==== Sys2Proof/Machine/Framebuffer.lean ====
section
/-! DEFINITION. CLEAR, SET_PIXEL, SET_CURSOR (40_framebuffer_ops.md). -/

namespace Sys2Proof.Machine

/-- CLEAR (40_framebuffer_ops.md R63). -/
def execClear (s : State) : Host.Outcome State Fault Refusal := .next (moveCursor 0 0 (clearFb s))

/-- SET_PIXEL (40_framebuffer_ops.md R64). -/
def execSetPixel (x y : Int) (v : Bool) (s : State) : Host.Outcome State Fault Refusal := .next (plot x y v s)

/-- SET_CURSOR (40_framebuffer_ops.md R65). -/
def execSetCursor (x y : Int) (s : State) : Host.Outcome State Fault Refusal := .next (moveCursor x y s)

end Sys2Proof.Machine
end

