-- ==== Sys2Proof/Machine/Raster.lean ====
section
/-! DEFINITION. DRAW_LINE, DRAW_RECT, DRAW_CIRCLE (41_rasterizer.md). -/

namespace Sys2Proof.Machine

/-! ## Lines (41_rasterizer.md R70) -/

/-- `steps = max(|dx|, |dy|)`. -/
def lineSteps (x1 y1 x2 y2 : Int) : Nat := max (x2 - x1).natAbs (y2 - y1).natAbs

/-- One coordinate of `P_i`: `RHA(c1*steps + i*d, steps)` with `d = c2 - c1`. -/
def lineCoord (c1 c2 : Int) (steps i : Nat) : Int := roundHalfAway (c1 * steps + i * (c2 - c1)) steps

/-- The DDA point sequence, in plot order. -/
def linePoints (x1 y1 x2 y2 : Int) : List (Int × Int) :=
  if lineSteps x1 y1 x2 y2 = 0 then [(x1, y1)]
  else (List.range (lineSteps x1 y1 x2 y2 + 1)).map fun i =>
    (lineCoord x1 x2 (lineSteps x1 y1 x2 y2) i, lineCoord y1 y2 (lineSteps x1 y1 x2 y2) i)

/-- DRAW_LINE (41_rasterizer.md R71). -/
def execDrawLine (x1 y1 x2 y2 : Int) (s : State) : Host.Outcome State Fault Refusal :=
  .next (plotAll (setDots (linePoints x1 y1 x2 y2)) s)

/-! ## Rectangles (41_rasterizer.md R73) -/

/-- The four edges: top, right, bottom, left. -/
def rectPoints (x1 y1 x2 y2 : Int) : List (Int × Int) :=
  linePoints x1 y1 x2 y1 ++ linePoints x2 y1 x2 y2 ++ linePoints x2 y2 x1 y2 ++ linePoints x1 y2 x1 y1

/-- DRAW_RECT (41_rasterizer.md R73). -/
def execDrawRect (x1 y1 x2 y2 : Int) (s : State) : Host.Outcome State Fault Refusal :=
  .next (plotAll (setDots (rectPoints x1 y1 x2 y2)) s)

/-! ## Circles (41_rasterizer.md R74) -/

/-- The body of one iteration after its plots: the two sequential `if`s on `(x, y, err)`. -/
def circleNext : Int × Int × Int → Int × Int × Int
  | (x, y, err) =>
    let y' := if err ≤ 0 then y + 1 else y
    let err' := if err ≤ 0 then err + 2 * y' + 1 else err
    if err' > 0 then (x - 1, y', err' - (2 * (x - 1) + 1)) else (x, y', err')

/-- `(x, y, err)` at the start of each of the first `fuel` iterations of `while x >= y`. -/
def circleTraceFrom : Nat → Int × Int × Int → List (Int × Int × Int)
  | 0, _ => []
  | fuel + 1, v => if v.2.1 ≤ v.1 then v :: circleTraceFrom fuel (circleNext v) else []

/-- `(x, y, err)` at the start of each iteration. Every iteration raises `y` or lowers `x`, so the loop, which starts at
`x - y = r` and runs while `x >= y`, makes at most `r + 1` (70_reset_and_hazards.md R125; log entry 20). -/
def circleTrace (r : Int) : List (Int × Int × Int) := circleTraceFrom (r + 1).toNat (r, 0, 0)

/-- The eight plots of one iteration. -/
def octantPoints (x0 y0 x y : Int) : List (Int × Int) :=
  [(x0 + x, y0 + y), (x0 - x, y0 + y), (x0 + x, y0 - y), (x0 - x, y0 - y),
    (x0 + y, y0 + x), (x0 - y, y0 + x), (x0 + y, y0 - x), (x0 - y, y0 - x)]

/-- All points a circle plots. -/
def circlePoints (x0 y0 r : Int) : List (Int × Int) := (circleTrace r).flatMap fun v => octantPoints x0 y0 v.1 v.2.1

/-- DRAW_CIRCLE (41_rasterizer.md R75). -/
def execDrawCircle (x0 y0 r : Int) (s : State) : Host.Outcome State Fault Refusal :=
  .next (plotAll (setDots (circlePoints x0 y0 r)) s)

end Sys2Proof.Machine
end

