-- ==== Sys2Proof/Machine/Serializer.lean ====
section
/-! DEFINITION. RENDER (43_serializer.md). -/

namespace Sys2Proof.Machine

/-- The 506 items of one RENDER: the column command, the row command, then `FB[0]` to `FB[503]` (43_serializer.md R91, R93). -/
def renderItems (fb : Memory) : List TxItem :=
  ⟨false, Config.cmdSetCol0⟩ :: ⟨false, Config.cmdSetRow0⟩ ::
    (List.range Config.fbBytes).map fun i => ⟨true, Memory.read fb i⟩

/-- RENDER (43_serializer.md R91): an atomic append, under the assumption R96 asks to be written down (log entry 1). -/
def execRender (s : State) : Host.Outcome State Fault Refusal := .next (emitAll (renderItems s.fb) s)

end Sys2Proof.Machine
end

