-- ==== Sys2Proof/Machine/Text.lean ====
section
/-! DEFINITION. WRITE_CHAR, WRITE_CHAR_OPP, REGISTER_GLYPH and the pseudo-instruction write_string (42_text_engine.md). -/

namespace Sys2Proof.Machine

/-- The plots of a glyph cell with its top-left pixel at `(cx, cy)`, `x` outer (42_text_engine.md R81, R83). -/
def cellDots (o : Orientation) (g : Glyph) (scale : Nat) (cx cy : Int) : List Dot :=
  (List.range (cellWidth o scale)).flatMap fun (x : Nat) =>
    (List.range (cellHeight o scale)).map fun (y : Nat) => ⟨cx + x, cy + y, cellBit o g scale x y⟩

/-- `AdvanceCursor(scale)` (42_text_engine.md R84). -/
def advanceCursor (scale : Nat) (s : State) : State :=
  let nx : Int := s.cursorX.toInt + 5 * scale + 1
  if nx ≥ Config.width then
    let ny : Int := s.cursorY.toInt + 7 * scale + 1
    if ny ≥ Config.height then moveCursor 0 0 (raise .cursorOverflow s)
    else moveCursor 0 ny s
  else moveCursor nx s.cursorY.toInt s

/-- One character write: lookup, plots, cursor advance (42_text_engine.md R78, R85). -/
def putChar (o : Orientation) (code scale : Nat) (s : State) : State :=
  match glyphLookup code s with
  | none => raise .rejectedCode s
  | some g => advanceCursor scale (plotAll (cellDots o g scale s.cursorX.toInt s.cursorY.toInt) s)

/-- WRITE_CHAR (42_text_engine.md R81). -/
def execWriteChar (code scale : Nat) (s : State) : Host.Outcome State Fault Refusal := .next (putChar .normal code scale s)

/-- WRITE_CHAR_OPP (42_text_engine.md R83). -/
def execWriteCharOpp (code scale : Nat) (s : State) : Host.Outcome State Fault Refusal :=
  .next (putChar .transposed code scale s)

/-- REGISTER_GLYPH (42_text_engine.md R88). -/
def execRegisterGlyph (code : Nat) (g : Glyph) (s : State) : Host.Outcome State Fault Refusal :=
  .next (if code < Config.customSlots then storeGlyph code g s else raise .rejectedRegistration s)

/-! ## write_string (30_encoding.md R61, 42_text_engine.md R87) -/

/-- The bytes of a text before its first zero byte. -/
def stringBytes (text : List Byte) : List Byte := text.takeWhile (· != 0)

/-- The commands `write_string text, scale, opposite` expands to (30_encoding.md R61). -/
def expandString (text : List Byte) (scale : Nat) (opposite : Bool) : List Instr :=
  (stringBytes text).map fun ch => if opposite then .writeCharOpp ch.toNat scale else .writeChar ch.toNat scale

/-- The effect of `write_string` on the state (42_text_engine.md R87). -/
def writeString (text : List Byte) (scale : Nat) (opposite : Bool) (s : State) : State :=
  (stringBytes text).foldl
    (fun s ch => putChar (if opposite then .transposed else .normal) ch.toNat scale s) s

end Sys2Proof.Machine
end

