-- ==== Sys2Proof/Machine/Dispatch.lean ====
section
/-! DEFINITION. The dispatch from a command to its meaning, one arm per constructor. -/

namespace Sys2Proof.Machine

def exec (i : Instr) (s : State) : Host.Outcome State Fault Refusal :=
  match i with
  | .clear => Sys2Proof.Machine.execClear s
  | .setPixel x y v => Sys2Proof.Machine.execSetPixel x y v s
  | .setCursor x y => Sys2Proof.Machine.execSetCursor x y s
  | .writeChar code scale => Sys2Proof.Machine.execWriteChar code scale s
  | .writeCharOpp code scale => Sys2Proof.Machine.execWriteCharOpp code scale s
  | .registerGlyph code g => Sys2Proof.Machine.execRegisterGlyph code g s
  | .drawLine x1 y1 x2 y2 => Sys2Proof.Machine.execDrawLine x1 y1 x2 y2 s
  | .drawRect x1 y1 x2 y2 => Sys2Proof.Machine.execDrawRect x1 y1 x2 y2 s
  | .drawCircle x0 y0 r => Sys2Proof.Machine.execDrawCircle x0 y0 r s
  | .render => Sys2Proof.Machine.execRender s

end Sys2Proof.Machine
end

