-- ==== Sys2Proof/Machine/Execute.lean ====
section
/-! DEFINITION. What the block does with one accepted word: decode, execute once, complete (30_encoding.md R62, 10_state.md R16). -/

namespace Sys2Proof.Machine

/-- A command's outcome with `BUSY` cleared at its completion (10_state.md R22). -/
def completed : Host.Outcome State Fault Refusal → Host.Outcome State Fault Refusal
  | .next t => .next (complete t)
  | .fault f => .fault f
  | .refused r => .refused r

/-- The effect of an accepted word: its command's, or, for an illegal word, the flag and nothing else
(30_encoding.md R58, R62). -/
def executeWord (w : CmdWord) (s : State) : Host.Outcome State Fault Refusal :=
  match decode w with
  | .ok i => exec i s
  | .error _ => .next (raise .illegalWord s)

/-- What the block does with the host's next act. With none it waits (70_reset_and_hazards.md R112); a word presented
while `BUSY` is 1 waits too (R121); reset is taken at once, whatever `BUSY` is (R113). -/
def nextEvent (s : State) : Host.Outcome State Fault Refusal :=
  match s.inputs with
  | [] => .next s
  | .reset :: rest => .next (resetBlock rest)
  | .word w :: rest => if cmdReady s then completed (executeWord w (accept rest s)) else .next s

end Sys2Proof.Machine
end

