-- ==== Sys2Proof/Machine/Step.lean ====
section
/-! DEFINITION. One step of the machine, and a state whose next step runs a given word. -/

namespace Sys2Proof.Machine

/-- One step: the host's next act, to its completion (10_state.md R16, 70_reset_and_hazards.md R124). -/
def step (s : State) : Host.Outcome State Fault Refusal := nextEvent s

/-- `s` with the word presented as the host's next act, and the block idle so that it is accepted. There is no memory a
command is fetched from (10_state.md R16; log entry 3). -/
def State.withFetchWord (s : State) (nbits w : Nat) : State := presentNext (BitVec.ofNat 64 (w % 2 ^ nbits)) s

end Sys2Proof.Machine
end

