-- ==== Sys2Proof/Machine/Display.lean ====
section
/-! DEFINITION. The display behind the output stream, outside the block, under the assumptions (b) to (d) of 43_serializer.md R97; used by the claim about the glass only. -/

namespace Sys2Proof.Machine

/-- A display of 84 columns by 6 pages with a write position (43_serializer.md R97). -/
structure Display where
  page : Nat
  col : Nat
  glass : Memory
  deriving DecidableEq, Repr

/-- What the display does with one item: (b) the two commands set its write position to column 0 and to page 0; (c) a data
byte is stored at the write position; (d) it then moves one column right, after column 83 to column 0 of the next page
(43_serializer.md R97; log entry 14). -/
def displayReceive (d : Display) (item : TxItem) : Display :=
  if item.dc then
    { page := if d.col = 83 then d.page + 1 else d.page
      col := if d.col = 83 then 0 else d.col + 1
      glass := Memory.write d.glass (d.page * Config.width + d.col) item.data }
  else
    { page := if item.data = Config.cmdSetRow0 then 0 else d.page
      col := if item.data = Config.cmdSetCol0 then 0 else d.col
      glass := d.glass }

/-- Whether pixel `(x, y)` of the glass is lit: bit 0 of a byte is the top pixel of its column (43_serializer.md R97 (c)). -/
def displayLit (d : Display) (x y : Nat) : Bool := (Memory.read d.glass (y / 8 * Config.width + x)).getLsbD (y % 8)

end Sys2Proof.Machine
end

