-- ==== Sys2Proof/Machine/Ports.lean ====
section
/-! DEFINITION. The ports, clock cycle by clock cycle (10_state.md R26 to R29): the same commands as `step`, with the hand-over of stream items and reset in mid-command made visible. -/

namespace Sys2Proof.Machine

/-- The inputs of one clock cycle: the reset wire (its form is the model's: log entry 12), the command port's `cmd_valid`
and `cmd_data` (10_state.md R26), the output port's `tx_ready` (R28). -/
structure PortIn where
  rst : Bool
  cmdValid : Bool
  cmdData : CmdWord
  txReady : Bool
  deriving DecidableEq, Repr

/-- The state between two cycles. -/
structure PortState where
  /-- The architectural state; its `tx` holds the items handed over so far. -/
  core : State
  /-- The items the command in progress has still to hand over, the first one offered now. -/
  sending : List TxItem
  /-- Cycles the command in progress still takes beside (70_reset_and_hazards.md R124; log entry 11). -/
  wait : Nat
  /-- The number of the cycle, which the free values are applied to. -/
  cycle : Nat
  deriving DecidableEq, Repr

/-- `cmd_ready`: "1 exactly when `BUSY` is 0 and the block is not in reset" (10_state.md R26). -/
def portCmdReady (i : PortIn) (p : PortState) : Bool := cmdReady p.core && !i.rst

/-- The item offered on the output port; `tx_valid` is 1 exactly when there is one (10_state.md R28). -/
def portTxItem (p : PortState) : Option TxItem := p.sending.head?

/-- `dbg_pixel` (10_state.md R29): the pixel when `BUSY` is 0, a free value when it is 1 (log entry 10). -/
def dbgPixel (p : PortState) (x : BitVec 7) (y : BitVec 6) : Bool :=
  if p.core.busy then Config.busyPixel p.cycle x y else pixel x.toNat y.toNat p.core

/-- The state after a cycle in which reset is asserted: a command in progress is abandoned (70_reset_and_hazards.md R113). -/
def portReset (p : PortState) : PortState := { core := resetBlock [], sending := [], wait := 0, cycle := p.cycle + 1 }

/-- The cycle that accepts a word: its effect, with the items it appends to the stream still to be handed over. -/
def portAccept (w : CmdWord) (p : PortState) : PortState :=
  match executeWord w (accept [] p.core) with
  | .next t =>
    { core := { t with tx := p.core.tx }, sending := t.tx.drop p.core.tx.length,
      wait := Config.busyCycles p.cycle, cycle := p.cycle + 1 }
  | .fault _ => { p with cycle := p.cycle + 1 }
  | .refused _ => { p with cycle := p.cycle + 1 }

/-- A cycle in which a command is in progress: hand over the item offered if the consumer takes it (10_state.md R28,
43_serializer.md R96); with none left, go on waiting, then complete (10_state.md R22). -/
def portContinue (i : PortIn) (p : PortState) : PortState :=
  match p.sending with
  | item :: rest =>
    if i.txReady then { p with core := emitAll [item] p.core, sending := rest, cycle := p.cycle + 1 }
    else { p with cycle := p.cycle + 1 }
  | [] =>
    if p.wait = 0 then { p with core := complete p.core, cycle := p.cycle + 1 }
    else { p with wait := p.wait - 1, cycle := p.cycle + 1 }

/-- One clock cycle. -/
def portCycle (i : PortIn) (p : PortState) : PortState :=
  if i.rst then portReset p
  else if p.core.busy then portContinue i p
  else if i.cmdValid && portCmdReady i p then portAccept i.cmdData p
  else { p with cycle := p.cycle + 1 }

/-- Clock cycles with the given inputs, first one first. -/
def portRun (is : List PortIn) (p : PortState) : PortState := is.foldl (fun p i => portCycle i p) p

/-- The architectural state once the command in progress will have completed: every item handed over, `BUSY` 0. -/
def settled (p : PortState) : State := complete (emitAll p.sending p.core)

/-- The port-level machine right after reset (10_state.md R30). -/
def PortState.reset : PortState := { core := State.reset, sending := [], wait := 0, cycle := 0 }

end Sys2Proof.Machine
end

