-- ==== Sys2Proof/Safety.lean ====
section
/-! DEFINITION. What counts as a good state and a safe run, in the terms the statements use. -/

namespace Sys2Proof.Machine

/-- The stream is a sequence of whole RENDERs: each the two positioning commands and then 504 data bytes
(43_serializer.md R91, R92). -/
def StreamFramed (tx : List TxItem) : Prop :=
  ∃ frames : List (List Byte), (∀ f ∈ frames, f.length = Config.fbBytes) ∧
    tx = frames.flatMap fun f =>
      ⟨false, Config.cmdSetCol0⟩ :: ⟨false, Config.cmdSetRow0⟩ :: f.map fun b => ⟨true, b⟩

/-- The invariant of the machine: the pixel array and the custom glyph store are in canonical form and list no index the
block does not have, `BUSY` is 0 between commands (10_state.md R22), and the stream is framed. -/
def Inv (s : State) : Prop :=
  Memory.wf Config.fbBytes s.fb = true ∧ Memory.wf Config.gramBytes s.gram = true ∧ s.busy = false ∧ StreamFramed s.tx

/-- The cursor lies on the display (10_state.md R15: an invariant only of sequences that keep SET_CURSOR in range). -/
def CursorOnDisplay (s : State) : Prop :=
  0 ≤ s.cursorX.toInt ∧ s.cursorX.toInt < 84 ∧ 0 ≤ s.cursorY.toInt ∧ s.cursorY.toInt < 48

/-- The word the block accepts in its next step, if it accepts one. -/
def nextWord (s : State) : Option CmdWord :=
  match s.inputs with
  | .word w :: _ => if cmdReady s then some w else none
  | _ => none

/-- A run is safe in the sense of 60_exceptions.md R110 when neither error flag is set at its end: only then does what is
proved about it say anything of the original software too (log entry 16). -/
def Safe (s : State) : Prop := s.errOob = false ∧ s.errIll = false

/-- The observable state of 40_framebuffer_ops.md R66 agrees: every pixel, the cursor, `GVALID`, the bytes of every valid
slot, `STATUS`, `TX`; and the host will do the same. -/
def ObsEq (s t : State) : Prop :=
  (∀ x y, pixel x y s = pixel x y t) ∧ s.cursorX = t.cursorX ∧ s.cursorY = t.cursorY ∧ s.gvalid = t.gvalid ∧
    (∀ c < 32, s.gvalid.getLsbD c = true → gramGlyph c s = gramGlyph c t) ∧ status s = status t ∧ s.tx = t.tx ∧
    s.inputs = t.inputs

/-- The plots a command makes in state `s`, in order (70_reset_and_hazards.md R125): with these very functions the meanings
compute them. -/
def commandDots : Instr → State → List Dot
  | .clear, _ => []
  | .setPixel x y v, _ => [⟨x, y, v⟩]
  | .setCursor _ _, _ => []
  | .writeChar code scale, s =>
    match glyphLookup code s with
    | none => []
    | some g => cellDots .normal g scale s.cursorX.toInt s.cursorY.toInt
  | .writeCharOpp code scale, s =>
    match glyphLookup code s with
    | none => []
    | some g => cellDots .transposed g scale s.cursorX.toInt s.cursorY.toInt
  | .registerGlyph _ _, _ => []
  | .drawLine x1 y1 x2 y2, _ => setDots (linePoints x1 y1 x2 y2)
  | .drawRect x1 y1 x2 y2, _ => setDots (rectPoints x1 y1 x2 y2)
  | .drawCircle x0 y0 r, _ => setDots (circlePoints x0 y0 r)
  | .render, _ => []

/-- Nothing but the pixel array and `ERR_OOB` may differ. -/
def OnlyPictureChanged (s t : State) : Prop := t = { s with fb := t.fb, errOob := t.errOob }

/-- Nothing but the pixel array, `ERR_OOB` and the cursor may differ. -/
def OnlyPictureAndCursorChanged (s t : State) : Prop :=
  t = { s with fb := t.fb, errOob := t.errOob, cursorX := t.cursorX, cursorY := t.cursorY }

/-- The value of the cursor registers. -/
def cursor (s : State) : Int × Int := (s.cursorX.toInt, s.cursorY.toInt)

end Sys2Proof.Machine
end

