-- ==== Sys2Proof/Certificates/Slice0/Obligations.lean ====
section
/-! DEFINITION. The statements for the provers. -/

open Sys2Proof Sys2Proof.Machine

/-! ## Encoding -/

/-- Words written out in 30_encoding.md R51 to R57 and 95_test_vectors.md 2.1 decode to the commands they stand for, and the
illegal words listed there to none. -/
def Obligations.SpecWordsDecodeToTheirCommands : Prop :=
  decode 0x0100000000000000 = .ok .clear ∧
  decode 0x020100300A000000 = .ok (.setPixel 3 10 true) ∧
  decode 0x0201FFF005000000 = .ok (.setPixel (-1) 5 true) ∧
  decode 0x0300FFD005000000 = .ok (.setCursor (-3) 5) ∧
  decode 0x1002010000000000 = .ok (.writeChar 1 2) ∧
  decode 0x1101010000000000 = .ok (.writeCharOpp 1 1) ∧
  decode 0x1200017F09192946 = .ok (.registerGlyph 1 ⟨0x7F, 0x09, 0x19, 0x29, 0x46⟩) ∧
  decode 0x2000FFEFFF002001 = .ok (.drawLine (-2) (-1) 2 1) ∧
  decode 0x2100000000009007 = .ok (.drawRect 0 0 9 7) ∧
  decode 0x220000A00AFFF000 = .ok (.drawCircle 10 10 (-1)) ∧
  decode 0x3000000000000000 = .ok .render ∧
  decode 0x0000000000000000 = .error (.unknownOpcode 0x00) ∧
  decode 0xFFFFFFFFFFFFFFFF = .error (.unknownOpcode 0xFF) ∧
  decode 0x0100000000000001 = .error (.reservedBitSet 0x01) ∧
  decode 0x0203001001000000 = .error (.reservedBitSet 0x02) ∧
  decode 0x2201000000000000 = .error (.reservedBitSet 0x22) ∧
  decode 0x1001410000000001 = .error (.reservedBitSet 0x10)

/-- 30_encoding.md R62: "Encoding then decoding returns the same mnemonic and operands", for every command whose operands
can be encoded. -/
def Obligations.EncodeThenDecodeGivesTheCommand : Prop :=
  ∀ i : Instr, i.wellFormed = true → decode (encode i) = .ok i

/-- 30_encoding.md R62: "decoding then encoding a legal word returns the same word"; and a decoded command's operands are in
range. -/
def Obligations.DecodeThenEncodeGivesTheWord : Prop :=
  ∀ (w : CmdWord) (i : Instr), decode w = .ok i → encode i = w ∧ i.wellFormed = true

/-- 30_encoding.md R50: "The rows are pairwise disjoint". -/
def Obligations.OpcodeRowsAreDisjoint : Prop :=
  ∀ (w : CmdWord), ∀ r ∈ opcodeTable, ∀ r' ∈ opcodeTable, r.hits w = true → r'.hits w = true →
    r.mnemonic = r'.mnemonic

/-- 30_encoding.md R48, R58: the legal words, told by opcode and by the reserved bits of the opcode's format. -/
def Obligations.LegalWordsAreThoseOfTheFormats : Prop :=
  ∀ w : CmdWord, (∃ i, decode w = .ok i) ↔
    ((w.extractLsb' 56 8 = 0x01#8 ∨ w.extractLsb' 56 8 = 0x30#8) ∧ w.extractLsb' 0 56 = 0#56) ∨
    (w.extractLsb' 56 8 = 0x02#8 ∧ w.extractLsb' 49 7 = 0#7 ∧ w.extractLsb' 0 24 = 0#24) ∨
    (w.extractLsb' 56 8 = 0x03#8 ∧ w.extractLsb' 48 8 = 0#8 ∧ w.extractLsb' 0 24 = 0#24) ∨
    ((w.extractLsb' 56 8 = 0x20#8 ∨ w.extractLsb' 56 8 = 0x21#8) ∧ w.extractLsb' 48 8 = 0#8) ∨
    (w.extractLsb' 56 8 = 0x22#8 ∧ w.extractLsb' 48 8 = 0#8 ∧ w.extractLsb' 0 12 = 0#12) ∨
    ((w.extractLsb' 56 8 = 0x10#8 ∨ w.extractLsb' 56 8 = 0x11#8) ∧ w.extractLsb' 0 40 = 0#40) ∨
    (w.extractLsb' 56 8 = 0x12#8 ∧ w.extractLsb' 48 8 = 0#8)

/-! ## The step -/

/-- When the host presents a word that decodes to `i` and the block is idle, the step is `exec i` of the state in which the
word is taken and BUSY is 1, with BUSY cleared at completion. -/
def Obligations.StepRunsTheDecodedCommand : Prop :=
  ∀ (s : State) (w : CmdWord) (rest : List HostEvent) (i : Instr),
    s.inputs = .word w :: rest → s.busy = false → decode w = .ok i →
    step s = completed (exec i { s with inputs := rest, busy := true }) ∧
    (∀ t, exec i { s with inputs := rest, busy := true } = .next t → step s = .next { t with busy := false })

/-- 60_exceptions.md R102: an illegal word is consumed and sets ERR_ILL; nothing else changes, and the block is ready for the
next word. -/
def Obligations.IllegalWordOnlySetsErrIll : Prop :=
  ∀ (s : State) (w : CmdWord) (rest : List HostEvent),
    s.inputs = .word w :: rest → s.busy = false → (∀ i, decode w ≠ .ok i) →
    step s = .next { s with inputs := rest, errIll := true } ∧
    cmdReady { s with inputs := rest, errIll := true } = true

/-- With no act of the host the block waits (70_reset_and_hazards.md R112), and a word presented while BUSY is 1 waits, not
lost and not executed (R121). -/
def Obligations.StepWaitsWithoutAWordOrWhileBusy : Prop :=
  (∀ s : State, s.inputs = [] → step s = .next s) ∧
  (∀ (s : State) (w : CmdWord) (rest : List HostEvent), s.inputs = .word w :: rest → s.busy = true → step s = .next s)

/-- 70_reset_and_hazards.md R111: the reset event yields the reset state, whatever the block was doing. -/
def Obligations.ResetEventGivesTheResetState : Prop :=
  ∀ (s : State) (rest : List HostEvent), s.inputs = .reset :: rest →
    step s = .next { State.reset with inputs := rest }

/-- The values 10_state.md R30 gives for reset, and its last sentence: the reset state is the state after CLEAR on a block
whose slots are all unset and whose flags are 0 (TX taken empty). Nothing is said of GRAM, whose reset value is the model's
choice (log entry 2). -/
def Obligations.ResetStateHoldsTheSpecValues : Prop :=
  (∀ a, Memory.read State.reset.fb a = 0) ∧ cursor State.reset = (0, 0) ∧
  (∀ c < 32, State.reset.gvalid.getLsbD c = false) ∧ status State.reset = 0#3 ∧ State.reset.tx = [] ∧
  cmdReady State.reset = true ∧ portTxItem PortState.reset = none ∧
  (∀ s : State, s.gvalid = 0 → s.errOob = false → s.errIll = false → s.busy = false → s.tx = [] →
    ∃ t, exec .clear s = .next t ∧ { t with gram := [], inputs := [] } = State.reset)

/-- The invariant holds at reset. -/
def Obligations.InvHoldsAtReset : Prop := Inv State.reset

/-- From every state that meets the invariant, every step gives a state that meets it: the arrays stay canonical and inside
the block's 504 and 160 bytes, BUSY is 0 between commands (10_state.md R22), and the output stream is a sequence of whole
RENDERs (43_serializer.md R91, R92). -/
def Obligations.EveryStepKeepsInv : Prop :=
  ∀ s t : State, Inv s → step s = .next t → Inv t

/-- 60_exceptions.md R98: nothing stops the machine; every step answers a next state, and after an accepted word the block is
ready for the next. -/
def Obligations.EveryStepAnswersANextState : Prop :=
  ∀ s : State, ∃ t, step s = .next t ∧ (cmdReady s = true → cmdReady t = true)

/-- 10_state.md R20, R21, R18 and 70_reset_and_hazards.md R111: reset is the only event that clears an error flag or unsets a
glyph slot. -/
def Obligations.OnlyResetClearsFlagsAndSlots : Prop :=
  ∀ s t : State, step s = .next t → (∀ rest, s.inputs ≠ .reset :: rest) →
    (s.errOob = true → t.errOob = true) ∧ (s.errIll = true → t.errIll = true) ∧
    (∀ c, s.gvalid.getLsbD c = true → t.gvalid.getLsbD c = true)

/-- The "written by" column of 10_state.md section 1, over all commands: a command not listed for a piece of state leaves it
unchanged; no command sets ERR_ILL (60_exceptions.md R105). -/
def Obligations.EachPieceOfStateHasItsWriters : Prop :=
  ∀ (i : Instr) (s t : State), exec i s = .next t →
    (t.fb = s.fb ∨ i.mnemonic ∈ ["CLEAR", "SET_PIXEL", "WRITE_CHAR", "WRITE_CHAR_OPP", "DRAW_LINE", "DRAW_RECT", "DRAW_CIRCLE"]) ∧
    (cursor t = cursor s ∨ i.mnemonic ∈ ["CLEAR", "SET_CURSOR", "WRITE_CHAR", "WRITE_CHAR_OPP"]) ∧
    ((t.gram = s.gram ∧ t.gvalid = s.gvalid) ∨ i.mnemonic ∈ ["REGISTER_GLYPH"]) ∧
    (t.errOob = s.errOob ∨
      i.mnemonic ∈ ["SET_PIXEL", "WRITE_CHAR", "WRITE_CHAR_OPP", "DRAW_LINE", "DRAW_RECT", "DRAW_CIRCLE"]) ∧
    (t.tx = s.tx ∨ i.mnemonic ∈ ["RENDER"]) ∧
    t.errIll = s.errIll ∧ t.busy = s.busy ∧ t.inputs = s.inputs

/-- 10_state.md R20, R21, R23: no command's behaviour depends on ERR_OOB, on ERR_ILL or on what TX holds. -/
def Obligations.FlagsAndStreamAreReadByNoCommand : Prop :=
  ∀ (i : Instr) (s : State), ∃ (t : State) (oob : Bool) (new : List TxItem),
    exec i s = .next t ∧ t.errOob = (s.errOob || oob) ∧ t.tx = s.tx ++ new ∧
    ∀ (a b : Bool) (u : List TxItem), exec i { s with errOob := a, errIll := b, tx := u } =
      .next { t with errOob := a || oob, errIll := b, tx := u ++ new }

/-- 40_framebuffer_ops.md R66: two states that agree on the observable state agree on the result of every command sequence.
So the bytes of an unset glyph slot, whose reset value is the model's choice (log entry 2), cannot be observed. -/
def Obligations.ObservablyEqualStatesStayObservablyEqual : Prop :=
  ∀ (n : Nat) (s t s' t' : State), Inv s → Inv t → ObsEq s t →
    Host.Core.run Sys2Proof.core n s = .next s' → Host.Core.run Sys2Proof.core n t = .next t' → ObsEq s' t'

/-- 10_state.md R15 and 90_conflicts.md C3: the cursor stays on the display as long as no SET_CURSOR has an operand off it. -/
def Obligations.CursorStaysOnDisplay : Prop :=
  ∀ s t : State, CursorOnDisplay s →
    (∀ w x y, nextWord s = some w → decode w = .ok (.setCursor x y) → 0 ≤ x ∧ x < 84 ∧ 0 ≤ y ∧ y < 48) →
    step s = .next t → CursorOnDisplay t

/-! ## Memory and pixels -/

/-- Read after write, canonical form kept, and canonical memories that read alike are equal data. -/
def Obligations.MemoryReadsWhatWasWritten : Prop :=
  ∀ (size : Nat) (m m' : Memory) (a : Nat) (b : Byte), Memory.wf size m = true → a < size →
    Memory.wf size (Memory.write m a b) = true ∧ Memory.read (Memory.write m a b) a = b ∧
    (∀ a', a' ≠ a → Memory.read (Memory.write m a b) a' = Memory.read m a') ∧
    (Memory.wf size m' = true → (∀ a', Memory.read m' a' = Memory.read m a') → m' = m)

/-- 20_memory.md R33: the pixel map, by its formula, and that it is a bijection between the 84 * 48 pixels and the 504 * 8
bits. -/
def Obligations.PixelMapIsABijection : Prop :=
  (∀ (s : State) (x y : Int), 0 ≤ x → x < 84 → 0 ≤ y → y < 48 →
    (fbIndex x y : Int) = y / 8 * 84 + x ∧ (fbBit y : Int) = y % 8 ∧ fbIndex x y < 504 ∧ fbBit y < 8 ∧
    pixel x y s = (Memory.read s.fb (fbIndex x y)).getLsbD (fbBit y)) ∧
  (∀ x y a b : Int, inBounds x y = true → inBounds a b = true →
    fbIndex x y = fbIndex a b → fbBit y = fbBit b → x = a ∧ y = b) ∧
  (∀ a k : Nat, a < 504 → k < 8 → ∃ x y : Int, inBounds x y = true ∧ fbIndex x y = a ∧ fbBit y = k)

/-- 20_memory.md R36: a plot on the display changes exactly the pixel it names, to the value it carries, and no other byte; a
plot off the display changes ERR_OOB and nothing else. -/
def Obligations.PlotWritesOnePixelOrSetsErrOob : Prop :=
  ∀ (s : State) (x y : Int) (v : Bool), Memory.wf 504 s.fb = true →
    (0 ≤ x ∧ x < 84 ∧ 0 ≤ y ∧ y < 48 →
      plot x y v s = { s with fb := (plot x y v s).fb } ∧
      (∀ a b, pixel a b (plot x y v s) = if a = x ∧ b = y then v else pixel a b s) ∧
      (∀ a, a ≠ fbIndex x y → Memory.read (plot x y v s).fb a = Memory.read s.fb a)) ∧
    (¬ (0 ≤ x ∧ x < 84 ∧ 0 ≤ y ∧ y < 48) → plot x y v s = { s with errOob := true })

/-- 20_memory.md R39: plots are idempotent; plots of one value commute; plots to different pixels commute. -/
def Obligations.PlotsAreIdempotentAndCommute : Prop :=
  ∀ (s : State) (x y a b : Int) (v u : Bool), Memory.wf 504 s.fb = true →
    plot x y v (plot x y v s) = plot x y v s ∧
    (v = u ∨ ¬ (x = a ∧ y = b) → plot a b u (plot x y v s) = plot x y v (plot a b u s))

/-- A plotting command keeps every byte of FB that holds no pixel of one of its plots; `commandDots` computes the plots with
the functions the meanings use. CLEAR is the only other command that writes FB. -/
def Obligations.CommandsKeepEveryOtherByte : Prop :=
  ∀ (i : Instr) (s t : State) (a : Nat), exec i s = .next t → i ≠ .clear →
    (∀ d ∈ commandDots i s, inBounds d.x d.y = true → fbIndex d.x d.y ≠ a) →
    Memory.read t.fb a = Memory.read s.fb a

/-- 60_exceptions.md R101, R110: if ERR_OOB is 0 after a command, none of its plots was clipped; if it was 0 before and is 1
after, one was. -/
def Obligations.ErrOobTellsWhetherAPlotWasClipped : Prop :=
  ∀ (i : Instr) (s t : State), exec i s = .next t →
    (t.errOob = false → ∀ d ∈ commandDots i s, inBounds d.x d.y = true) ∧
    (s.errOob = false → t.errOob = true → ∃ d ∈ commandDots i s, inBounds d.x d.y = false)

/-! ## CLEAR, SET_PIXEL, SET_CURSOR -/

/-- 40_framebuffer_ops.md R63. -/
def Obligations.ClearZeroesArrayAndCursor : Prop :=
  ∀ s : State, ∃ t, exec .clear s = .next t ∧ (∀ a, Memory.read t.fb a = 0x00) ∧ cursor t = (0, 0) ∧
    t = { s with fb := t.fb, cursorX := t.cursorX, cursorY := t.cursorY } ∧
    (∀ x y, pixel x y t = false) ∧ exec .clear t = .next t ∧ encode .clear = 0x0100000000000000

/-- 40_framebuffer_ops.md R64, with the byte the pixel lies in, all other bytes, the flag, and the round trip. -/
def Obligations.SetPixelResult : Prop :=
  ∀ (s : State) (x y : Int) (v : Bool), Memory.wf 504 s.fb = true →
    ∃ t, exec (.setPixel x y v) s = .next t ∧ OnlyPictureChanged s t ∧
      (0 ≤ x ∧ x < 84 ∧ 0 ≤ y ∧ y < 48 →
        t.errOob = s.errOob ∧
        (∀ a : Nat, Memory.read t.fb a =
          if (a : Int) = y / 8 * 84 + x then
            (if v then Memory.read s.fb a ||| (1#8 <<< (y % 8).toNat) else Memory.read s.fb a &&& ~~~(1#8 <<< (y % 8).toNat))
          else Memory.read s.fb a) ∧
        pixel x y t = v ∧
        (∃ u, exec (.setPixel x y (!v)) t = .next u ∧ pixel x y u = !v)) ∧
      (¬ (0 ≤ x ∧ x < 84 ∧ 0 ≤ y ∧ y < 48) → t = { s with errOob := true }) ∧
      decode 0x020100300A000000 = .ok (.setPixel 3 10 true)

/-- 40_framebuffer_ops.md R65: "any `i12` pair is stored as given". -/
def Obligations.SetCursorStoresItsOperands : Prop :=
  ∀ (s : State) (x y : Int), (Instr.setCursor x y).wellFormed = true →
    ∃ t, exec (.setCursor x y) s = .next t ∧ cursor t = (x, y) ∧
      t = { s with cursorX := t.cursorX, cursorY := t.cursorY } ∧
      decode 0x030000A003000000 = .ok (.setCursor 10 3)

/-! ## The rasterizer -/

/-- 00_scope.md R9: RHA gives the nearest integer, ties away from zero; it is odd (40_framebuffer_ops.md R67). -/
def Obligations.RoundingIsToNearestTiesAway : Prop :=
  ∀ n d : Int, 0 < d →
    2 * |n - roundHalfAway n d * d| ≤ d ∧
    (2 * |n - roundHalfAway n d * d| = d → |n| < |roundHalfAway n d * d|) ∧
    roundHalfAway (-n) d = -roundHalfAway n d

/-- 41_rasterizer.md R71: every pixel of the DDA sequence of R70 is set, every other keeps its value; ERR_OOB records a point
off the display; nothing else changes. -/
def Obligations.DrawLineResult : Prop :=
  ∀ (s : State) (x1 y1 x2 y2 : Int), Memory.wf 504 s.fb = true →
    ∃ t, exec (.drawLine x1 y1 x2 y2) s = .next t ∧ OnlyPictureChanged s t ∧
      ∃ (steps : Nat) (pts : List (Int × Int)),
        steps = max (x2 - x1).natAbs (y2 - y1).natAbs ∧
        pts = (if steps = 0 then [(x1, y1)] else (List.range (steps + 1)).map fun (i : Nat) =>
          (roundHalfAway (x1 * steps + i * (x2 - x1)) steps, roundHalfAway (y1 * steps + i * (y2 - y1)) steps)) ∧
        (∀ a b, 0 ≤ a → a < 84 → 0 ≤ b → b < 48 → pixel a b t = (pixel a b s || decide ((a, b) ∈ pts))) ∧
        t.errOob = (s.errOob || pts.any fun p => !inBounds p.1 p.2) ∧
        decode 0x2000000000005002 = .ok (.drawLine 0 0 5 2)

/-- 41_rasterizer.md R72 (a) to (d): `steps + 1` distinct points, from end point to end point, one per column or row of the
major axis, neighbours at most one apart in each coordinate. -/
def Obligations.LinesAreGaplessBetweenTheirEndPoints : Prop :=
  ∀ x1 y1 x2 y2 : Int,
    (linePoints x1 y1 x2 y2).length = max (x2 - x1).natAbs (y2 - y1).natAbs + 1 ∧
    (linePoints x1 y1 x2 y2).head? = some (x1, y1) ∧ (linePoints x1 y1 x2 y2).getLast? = some (x2, y2) ∧
    (linePoints x1 y1 x2 y2).Nodup ∧
    (∀ (i : Nat) (p : Int × Int), (linePoints x1 y1 x2 y2)[i]? = some p →
      ((y2 - y1).natAbs ≤ (x2 - x1).natAbs → p.1 = x1 + i * (x2 - x1).sign) ∧
      ((x2 - x1).natAbs ≤ (y2 - y1).natAbs → p.2 = y1 + i * (y2 - y1).sign)) ∧
    (∀ (i : Nat) (p q : Int × Int), (linePoints x1 y1 x2 y2)[i]? = some p → (linePoints x1 y1 x2 y2)[i + 1]? = some q →
      |q.1 - p.1| ≤ 1 ∧ |q.2 - p.2| ≤ 1)

/-- 41_rasterizer.md R72 (e): swapping the end points gives the same points, traversed backwards; so the command draws the
same. -/
def Obligations.LinesDoNotDependOnTheirDirection : Prop :=
  ∀ x1 y1 x2 y2 : Int,
    linePoints x2 y2 x1 y1 = (linePoints x1 y1 x2 y2).reverse ∧
    (∀ s : State, Memory.wf 504 s.fb = true → exec (.drawLine x2 y2 x1 y1) s = exec (.drawLine x1 y1 x2 y2) s)

/-- 41_rasterizer.md R73: for every order of the operands the perimeter of the rectangle is drawn and nothing else: no
interior pixel is touched; ERR_OOB records a perimeter pixel off the display. -/
def Obligations.DrawRectSetsThePerimeter : Prop :=
  ∀ (s : State) (x1 y1 x2 y2 : Int), Memory.wf 504 s.fb = true →
    ∃ t, exec (.drawRect x1 y1 x2 y2) s = .next t ∧ OnlyPictureChanged s t ∧
      (∀ a b, 0 ≤ a → a < 84 → 0 ≤ b → b < 48 → (pixel a b t = true ↔ pixel a b s = true ∨
        (min x1 x2 ≤ a ∧ a ≤ max x1 x2 ∧ min y1 y2 ≤ b ∧ b ≤ max y1 y2 ∧ (a = x1 ∨ a = x2 ∨ b = y1 ∨ b = y2)))) ∧
      (t.errOob = true ↔ s.errOob = true ∨ ∃ a b : Int,
        min x1 x2 ≤ a ∧ a ≤ max x1 x2 ∧ min y1 y2 ≤ b ∧ b ≤ max y1 y2 ∧ (a = x1 ∨ a = x2 ∨ b = y1 ∨ b = y2) ∧
        ¬ (0 ≤ a ∧ a < 84 ∧ 0 ≤ b ∧ b < 48)) ∧
      decode 0x2100000000009007 = .ok (.drawRect 0 0 9 7)

/-- 41_rasterizer.md R74, R75: the pixels of the eight octant points of every iteration are set, every other keeps its value;
ERR_OOB records a point off the display; nothing else changes. -/
def Obligations.DrawCircleResult : Prop :=
  ∀ (s : State) (x0 y0 r : Int), Memory.wf 504 s.fb = true →
    ∃ t, exec (.drawCircle x0 y0 r) s = .next t ∧ OnlyPictureChanged s t ∧
      (∀ a b, 0 ≤ a → a < 84 → 0 ≤ b → b < 48 → (pixel a b t = true ↔ pixel a b s = true ∨
        ∃ v ∈ circleTrace r,
          ((a = x0 + v.1 ∨ a = x0 - v.1) ∧ (b = y0 + v.2.1 ∨ b = y0 - v.2.1)) ∨
          ((a = x0 + v.2.1 ∨ a = x0 - v.2.1) ∧ (b = y0 + v.1 ∨ b = y0 - v.1)))) ∧
      (t.errOob = true ↔ s.errOob = true ∨ ∃ p ∈ circlePoints x0 y0 r, inBounds p.1 p.2 = false) ∧
      decode 0x220000A00A005000 = .ok (.drawCircle 10 10 5)

/-- 41_rasterizer.md R74: the trace is the whole run of "while x >= y" from `(r, 0, 0)`: tested before the first iteration,
each iteration the two sequential ifs, ended by the test and not by the model's fuel (log entry 20). -/
def Obligations.CircleLoopRunsWhileXIsAtLeastY : Prop :=
  ∀ r : Int,
    (circleTrace r = [] ↔ r < 0) ∧
    (0 ≤ r → (circleTrace r).head? = some (r, 0, 0)) ∧
    (∀ v ∈ circleTrace r, v.2.1 ≤ v.1) ∧
    (∀ (k : Nat) (x y err : Int), (circleTrace r)[k]? = some (x, y, err) →
      ∃ x' y' err' : Int,
        y' = (if err ≤ 0 then y + 1 else y) ∧ err' = (if err ≤ 0 then err + 2 * (y + 1) + 1 else err) ∧
        x' = (if 0 < err' then x - 1 else x) ∧
        (circleTrace r)[k + 1]? =
          if y' ≤ x' then some (x', y', if 0 < err' then err' - (2 * (x - 1) + 1) else err') else none)

/-- 41_rasterizer.md R76 (a), (b), (g): radius 0 plots the centre alone; a negative radius changes nothing; the four extreme
points are always plotted. -/
def Obligations.CircleCornerCases : Prop :=
  (∀ (s : State) (x0 y0 : Int), Memory.wf 504 s.fb = true →
    exec (.drawCircle x0 y0 0) s = .next (plot x0 y0 true s)) ∧
  (∀ (s : State) (x0 y0 r : Int), r < 0 → exec (.drawCircle x0 y0 r) s = .next s) ∧
  (∀ x0 y0 r : Int, 0 ≤ r → (x0 + r, y0) ∈ circlePoints x0 y0 r ∧ (x0 - r, y0) ∈ circlePoints x0 y0 r ∧
    (x0, y0 + r) ∈ circlePoints x0 y0 r ∧ (x0, y0 - r) ∈ circlePoints x0 y0 r)

/-- 41_rasterizer.md R76 (d): the point set is symmetric under the axis reflections and the diagonal reflections through the
centre. -/
def Obligations.CirclesAreEightWaySymmetric : Prop :=
  ∀ x0 y0 r a b : Int, (a, b) ∈ circlePoints x0 y0 r →
    (2 * x0 - a, b) ∈ circlePoints x0 y0 r ∧ (a, 2 * y0 - b) ∈ circlePoints x0 y0 r ∧
    (x0 + (b - y0), y0 + (a - x0)) ∈ circlePoints x0 y0 r ∧ (x0 - (b - y0), y0 - (a - x0)) ∈ circlePoints x0 y0 r

/-- 41_rasterizer.md R76 (e), (f): at most 1447 iterations, and the working values stay within the bounds given there, at the
start of every iteration and after it. -/
def Obligations.CircleWorkingValuesAreBounded : Prop :=
  ∀ r : Int, 0 ≤ r → r ≤ 2047 →
    (circleTrace r).length ≤ 1447 ∧
    ∀ v ∈ circleTrace r,
      (-1 ≤ v.1 ∧ v.1 ≤ r ∧ 0 ≤ v.2.1 ∧ v.2.1 ≤ 1447 ∧ |v.2.2| ≤ 4090) ∧
      (-1 ≤ (circleNext v).1 ∧ (circleNext v).1 ≤ r ∧ 0 ≤ (circleNext v).2.1 ∧ (circleNext v).2.1 ≤ 1447 ∧
        |(circleNext v).2.2| ≤ 4090)

/-- 70_reset_and_hazards.md R125: the number of plots or stream items of each command, and the bounds over all operands that
can be encoded. -/
def Obligations.WorkPerCommandIsBounded : Prop :=
  (∀ (s : State) (x1 y1 x2 y2 : Int),
    (commandDots (.drawLine x1 y1 x2 y2) s).length = max (x2 - x1).natAbs (y2 - y1).natAbs + 1 ∧
    (commandDots (.drawRect x1 y1 x2 y2) s).length = 2 * ((x2 - x1).natAbs + 1) + 2 * ((y2 - y1).natAbs + 1) ∧
    ((Instr.drawLine x1 y1 x2 y2).wellFormed = true →
      (commandDots (.drawLine x1 y1 x2 y2) s).length ≤ 4096 ∧
      (commandDots (.drawRect x1 y1 x2 y2) s).length ≤ 16384)) ∧
  (∀ (s : State) (x0 y0 r : Int),
    (commandDots (.drawCircle x0 y0 r) s).length = 8 * (circleTrace r).length ∧
    ((Instr.drawCircle x0 y0 r).wellFormed = true → (commandDots (.drawCircle x0 y0 r) s).length ≤ 11576)) ∧
  (∀ (s : State) (code scale : Nat),
    (commandDots (.writeChar code scale) s).length = (if 0x80 ≤ code then 0 else 35 * scale ^ 2) ∧
    (commandDots (.writeCharOpp code scale) s).length = (if 0x80 ≤ code then 0 else 35 * scale ^ 2) ∧
    ((Instr.writeChar code scale).wellFormed = true → (commandDots (.writeChar code scale) s).length ≤ 2275875)) ∧
  (∀ fb : Memory, (renderItems fb).length = 506)

/-! ## The text engine -/

/-- 42_text_engine.md R79, case by case. -/
def Obligations.GlyphLookupCases : Prop :=
  ∀ (s : State) (code : Nat),
    (0x80 ≤ code → glyphLookup code s = none) ∧
    (∀ h : 0x20 ≤ code ∧ code < 0x80, glyphLookup code s = some (Config.fontRom ⟨code - 0x20, by omega⟩)) ∧
    (code < 0x20 → s.gvalid.getLsbD code = true → glyphLookup code s = some
      ⟨Memory.read s.gram (5 * code), Memory.read s.gram (5 * code + 1), Memory.read s.gram (5 * code + 2),
        Memory.read s.gram (5 * code + 3), Memory.read s.gram (5 * code + 4)⟩) ∧
    (code < 0x20 → s.gvalid.getLsbD code = false → glyphLookup code s = some (Config.fontRom 0))

/-- 42_text_engine.md R84: the cursor after a character write whose code is not rejected, in either orientation. -/
def Obligations.CursorAdvance : Prop :=
  ∀ (s : State) (code scale : Nat), code < 0x80 → ∀ i ∈ [Instr.writeChar code scale, .writeCharOpp code scale],
    ∃ t, exec i s = .next t ∧ cursor t =
      if (cursor s).1 + 5 * scale + 1 ≥ 84 then
        (0, if (cursor s).2 + 7 * scale + 1 ≥ 48 then 0 else (cursor s).2 + 7 * scale + 1)
      else ((cursor s).1 + 5 * scale + 1, (cursor s).2)

/-- 42_text_engine.md R81: with no glyph nothing changes. With a glyph, inside the cell every pixel of the display becomes the glyph's bit, outside it every pixel keeps
its value; ERR_OOB records a cell pixel off the display; the cursor advances by R84; nothing else changes. -/
def Obligations.WriteCharResult : Prop :=
  ∀ (s : State) (code scale : Nat), Memory.wf 504 s.fb = true →
    (glyphLookup code s = none → exec (.writeChar code scale) s = .next s) ∧
    ∀ (g : Glyph) (cx cy : Int), glyphLookup code s = some g → cursor s = (cx, cy) →
    ∃ t, exec (.writeChar code scale) s = .next t ∧ OnlyPictureAndCursorChanged s t ∧
      (∀ a b, 0 ≤ a → a < 84 → 0 ≤ b → b < 48 → pixel a b t =
        if cx ≤ a ∧ a < cx + 5 * scale ∧ cy ≤ b ∧ b < cy + 7 * scale then
          (glyphColumn g ((a - cx) / scale).toNat).getLsbD ((b - cy) / scale).toNat
        else pixel a b s) ∧
      (t.errOob = true ↔ s.errOob = true ∨
        (1 ≤ scale ∧ ¬ (0 ≤ cx ∧ cx + 5 * scale ≤ 84 ∧ 0 ≤ cy ∧ cy + 7 * scale ≤ 48))) ∧
      cursor t = (if cx + 5 * scale + 1 ≥ 84 then (0, if cy + 7 * scale + 1 ≥ 48 then 0 else cy + 7 * scale + 1)
        else (cx + 5 * scale + 1, cy)) ∧
      decode 0x1001010000000000 = .ok (.writeChar 1 1)

/-- 42_text_engine.md R83: the same with the cell turned a quarter: `7*scale` wide, `5*scale` tall, the bit by R82; the cursor
advance is that of the normal orientation. -/
def Obligations.WriteCharOppResult : Prop :=
  ∀ (s : State) (code scale : Nat), Memory.wf 504 s.fb = true →
    (glyphLookup code s = none → exec (.writeCharOpp code scale) s = .next s) ∧
    ∀ (g : Glyph) (cx cy : Int), glyphLookup code s = some g → cursor s = (cx, cy) →
    ∃ t, exec (.writeCharOpp code scale) s = .next t ∧ OnlyPictureAndCursorChanged s t ∧
      (∀ a b, 0 ≤ a → a < 84 → 0 ≤ b → b < 48 → pixel a b t =
        if cx ≤ a ∧ a < cx + 7 * scale ∧ cy ≤ b ∧ b < cy + 5 * scale then
          (glyphColumn g (4 - (b - cy) / scale).toNat).getLsbD ((a - cx) / scale).toNat
        else pixel a b s) ∧
      (t.errOob = true ↔ s.errOob = true ∨
        (1 ≤ scale ∧ ¬ (0 ≤ cx ∧ cx + 7 * scale ≤ 84 ∧ 0 ≤ cy ∧ cy + 5 * scale ≤ 48))) ∧
      cursor t = (if cx + 5 * scale + 1 ≥ 84 then (0, if cy + 7 * scale + 1 ≥ 48 then 0 else cy + 7 * scale + 1)
        else (cx + 5 * scale + 1, cy)) ∧
      decode 0x1101010000000000 = .ok (.writeCharOpp 1 1)

/-- 42_text_engine.md R85: a code from 0x80 on changes nothing at all; its words are legal encodings. -/
def Obligations.RejectedCodesChangeNothing : Prop :=
  ∀ (s : State) (code scale : Nat), 0x80 ≤ code →
    exec (.writeChar code scale) s = .next s ∧ exec (.writeCharOpp code scale) s = .next s ∧
    (code < 256 → scale < 256 → decode (encode (.writeChar code scale)) = .ok (.writeChar code scale) ∧
      decode (encode (.writeCharOpp code scale)) = .ok (.writeCharOpp code scale))

/-- 42_text_engine.md R86, scale 0: no pixel, no flag, the cursor moves one column, wrapping by one row. -/
def Obligations.ScaleZeroOnlyMovesTheCursor : Prop :=
  ∀ (s : State) (code : Nat), code < 0x80 → ∀ i ∈ [Instr.writeChar code 0, .writeCharOpp code 0],
    ∃ t, exec i s = .next t ∧ t = { s with cursorX := t.cursorX, cursorY := t.cursorY } ∧
      cursor t = if (cursor s).1 + 1 ≥ 84 then (0, if (cursor s).2 + 1 ≥ 48 then 0 else (cursor s).2 + 1)
        else ((cursor s).1 + 1, (cursor s).2)

/-- 42_text_engine.md R86, scale 255 with the cursor at the origin: the whole array becomes bit 0 of the glyph's first
column, ERR_OOB is set, the cursor is at the origin. -/
def Obligations.LargestScaleFillsTheDisplay : Prop :=
  ∀ (s : State) (code : Nat) (g : Glyph), Memory.wf 504 s.fb = true → glyphLookup code s = some g → cursor s = (0, 0) →
    ∃ t, exec (.writeChar code 255) s = .next t ∧
      (∀ a < 504, Memory.read t.fb a = if g.g0.getLsbD 0 then 0xFF else 0x00) ∧ t.errOob = true ∧ cursor t = (0, 0)

/-- 42_text_engine.md R88: a code below 0x20 stores the five bytes as given and sets the slot's valid bit, every other slot
unchanged; any other code changes nothing. -/
def Obligations.RegisterGlyphResult : Prop :=
  ∀ (s : State) (code : Nat) (g : Glyph), Memory.wf 160 s.gram = true →
    ∃ t, exec (.registerGlyph code g) s = .next t ∧
      (code < 0x20 →
        t = { s with gram := t.gram, gvalid := t.gvalid } ∧
        gramGlyph code t = g ∧
        (∀ a, (∀ col < 5, a ≠ 5 * code + col) → Memory.read t.gram a = Memory.read s.gram a) ∧
        (∀ c < 32, t.gvalid.getLsbD c = (s.gvalid.getLsbD c || decide (c = code)))) ∧
      (0x20 ≤ code → t = s) ∧
      decode 0x1200017F09192946 = .ok (.registerGlyph 1 ⟨0x7F, 0x09, 0x19, 0x29, 0x46⟩)

/-- 20_memory.md R45 and 95_test_vectors.md S7: a registered glyph is what its code draws, at once and until it is registered
again; a registration from 0x20 on changes no lookup. -/
def Obligations.RegisteredGlyphIsDrawnFromThenOn : Prop :=
  ∀ (s t : State) (code : Nat) (g : Glyph), Memory.wf 160 s.gram = true → exec (.registerGlyph code g) s = .next t →
    (code < 0x20 → glyphLookup code t = some g ∧
      ∀ (i : Instr) (u : State), (∀ g', i ≠ .registerGlyph code g') → exec i t = .next u →
        glyphLookup code u = some g) ∧
    (0x20 ≤ code → ∀ c, glyphLookup c t = glyphLookup c s)

/-- 42_text_engine.md R89: two glyphs, of the table or registered, that differ only in bit 7 of some bytes render
identically; a registered glyph keeps its bit 7. -/
def Obligations.GlyphBitSevenIsNeverDrawn : Prop :=
  (∀ (o : Orientation) (g g' : Glyph) (scale : Nat) (cx cy : Int),
    (∀ col < 5, ∀ k < 7, (glyphColumn g col).getLsbD k = (glyphColumn g' col).getLsbD k) →
    cellDots o g scale cx cy = cellDots o g' scale cx cy) ∧
  ∀ (s t t' : State) (code scale : Nat) (g g' : Glyph), Memory.wf 160 s.gram = true → code < 0x20 →
    (∀ col < 5, ∀ k < 7, (glyphColumn g col).getLsbD k = (glyphColumn g' col).getLsbD k) →
    exec (.registerGlyph code g) s = .next t → exec (.registerGlyph code g') s = .next t' →
    ∀ i ∈ [Instr.writeChar code scale, .writeCharOpp code scale],
      ∃ u u', exec i t = .next u ∧ exec i t' = .next u' ∧ u' = { u with gram := u'.gram } ∧
        gramGlyph code u = g ∧ gramGlyph code u' = g'

/-- 42_text_engine.md R87 and 30_encoding.md R61: presenting the words `write_string` expands to runs, in as many steps as the
text has bytes before its first zero byte, to the state the iteration over its characters gives. -/
def Obligations.WriteStringIsItsExpansion : Prop :=
  ∀ (s : State) (text : List Byte) (scale : Nat) (opposite : Bool) (rest : List HostEvent),
    scale < 256 → s.busy = false →
    s.inputs = ((expandString text scale opposite).map fun i => HostEvent.word (encode i)) ++ rest →
    Host.Core.run Sys2Proof.core (text.takeWhile (· != 0)).length s =
      .next { writeString text scale opposite s with inputs := rest }

/-- 42_text_engine.md R84 and 95_test_vectors.md S4, S8: `n` characters at scale 1 from the origin, none rejected, in either
orientation: lines of 14 characters, 6 columns and 8 rows apart, and back at the origin after 84. -/
def Obligations.ScaleOneTextVisitsSixLinesOfFourteen : Prop :=
  ∀ (s : State) (codes : List Nat) (o : Orientation), cursor s = (0, 0) → (∀ c ∈ codes, c < 0x80) → codes.length ≤ 84 →
    cursor (codes.foldl (fun s c => putChar o c 1 s) s) =
      if codes.length = 84 then (0, 0) else (6 * ((codes.length % 14 : Nat) : Int), 8 * ((codes.length / 14 : Nat) : Int))

/-! ## RENDER and the stream -/

/-- 43_serializer.md R91: 506 items are appended: the column command, the row command, the 504 bytes in ascending order;
nothing else changes; two RENDERs in a row append the same items twice. -/
def Obligations.RenderAppends506Items : Prop :=
  ∀ s : State, ∃ (t : State) (items : List TxItem), exec .render s = .next t ∧ t = { s with tx := s.tx ++ items } ∧
    items.length = 506 ∧ items[0]? = some ⟨false, Config.cmdSetCol0⟩ ∧ items[1]? = some ⟨false, Config.cmdSetRow0⟩ ∧
    (∀ i < 504, items[2 + i]? = some ⟨true, Memory.read s.fb i⟩) ∧
    exec .render t = .next { s with tx := s.tx ++ items ++ items } ∧ encode .render = 0x3000000000000000

/-- 43_serializer.md R97: a display that receives the items of one RENDER, under the assumptions (b) to (d) there
(Machine/Display.lean, log entry 14), shows exactly FB, whatever it showed and wherever its write position was. -/
def Obligations.DisplayShowsTheArrayAfterRender : Prop :=
  ∀ (s t : State) (d : Display), Memory.wf 504 s.fb = true → Memory.wf 504 d.glass = true → exec .render s = .next t →
    ∀ x y : Nat, x < 84 → y < 48 →
      displayLit ((t.tx.drop s.tx.length).foldl displayReceive d) x y = pixel x y s

/-! ## The ports -/

/-- 10_state.md R19 and R29: the bits of STATUS, and the debug pixel while BUSY is 0, which is 0 off the display. -/
def Obligations.StatusAndDebugPorts : Prop :=
  (∀ s : State, (status s).getLsbD 0 = s.busy ∧ (status s).getLsbD 1 = s.errOob ∧ (status s).getLsbD 2 = s.errIll) ∧
  (∀ (p : PortState) (x : BitVec 7) (y : BitVec 6), p.core.busy = false →
    dbgPixel p x y = if x.toNat < 84 ∧ y.toNat < 48 then
      (Memory.read p.core.fb (y.toNat / 8 * 84 + x.toNat)).getLsbD (y.toNat % 8) else false)

/-- 10_state.md R26, 70_reset_and_hazards.md R113, R121: while BUSY is 1 what the command port carries makes no difference; a
cycle in which reset is asserted gives the reset state, whatever was in progress. -/
def Obligations.BusyPortAcceptsNothingAndResetAbandons : Prop :=
  (∀ (i : PortIn) (p : PortState) (valid : Bool) (w : CmdWord), p.core.busy = true →
    portCycle { i with cmdValid := valid, cmdData := w } p = portCycle i p) ∧
  (∀ (i : PortIn) (p : PortState), i.rst = true →
    (portCycle i p).core = State.reset ∧ portTxItem (portCycle i p) = none ∧ portCmdReady i p = false)

/-- The port-level machine refines `step` (10_state.md R22, R26, R28; 43_serializer.md R96): from an idle block that accepts a
word, after any cycles without reset and without a further word, whenever the consumer took items and whenever it did not,
the architectural state, once every item is handed over, is the one `step` gives. -/
def Obligations.PortsRefineStep : Prop :=
  ∀ (p : PortState) (i : PortIn) (is : List PortIn) (t : State),
    p.core.busy = false → p.sending = [] → i.rst = false → i.cmdValid = true →
    (∀ j ∈ is, j.rst = false ∧ j.cmdValid = false) →
    step { p.core with inputs := [.word i.cmdData] } = .next t →
    settled (portRun (i :: is) p) = t ∧
    ((portRun (i :: is) p).core.busy = false → (portRun (i :: is) p).core = t ∧ (portRun (i :: is) p).sending = [])

/-- 43_serializer.md R96 and 70_reset_and_hazards.md R121, R125: if the consumer takes an item in 506 cycles, and the cycles
the command takes beside (a free value, log entry 11) have passed, the command has completed with the state `step` gives. -/
def Obligations.CommandsCompleteIfTheConsumerTakesItems : Prop :=
  ∀ (p : PortState) (i : PortIn) (taking rest : List PortIn) (t : State),
    p.core.busy = false → p.sending = [] → i.rst = false → i.cmdValid = true →
    (∀ j ∈ taking ++ rest, j.rst = false ∧ j.cmdValid = false) →
    506 ≤ taking.countP (fun j => j.txReady) → Config.busyCycles p.cycle < rest.length →
    step { p.core with inputs := [.word i.cmdData] } = .next t →
    (portRun (i :: (taking ++ rest)) p).core = t

/-- 43_serializer.md R96 (93_implementation_defined.md U10): while items remain, a consumer that takes none keeps the block
BUSY for ever, its state unchanged. -/
def Obligations.StalledConsumerStallsTheBlock : Prop :=
  ∀ (p : PortState) (is : List PortIn), p.core.busy = true → p.sending ≠ [] →
    (∀ j ∈ is, j.rst = false ∧ j.txReady = false) →
    (portRun is p).core = p.core ∧ (portRun is p).sending = p.sending
end

