-- ==== Sys2Proof/Laws/Decode.lean ====
section
/-! SUPPORT. The decoder's spec lemma: a word decodes to a command exactly by the one row it matches; fields of a concatenation. -/

namespace Sys2Proof

/-- The part of a concatenation above its right operand. -/
theorem extractLsb'_append_left {n m : Nat} (a : BitVec n) (b : BitVec m) (lo len : Nat) (h : m ≤ lo) :
    (a ++ b).extractLsb' lo len = a.extractLsb' (lo - m) len := by
  refine BitVec.eq_of_getLsbD_eq fun k hk => ?_
  rw [BitVec.getLsbD_extractLsb', BitVec.getLsbD_extractLsb', BitVec.getLsbD_append, if_neg (by omega)]
  congr 2
  omega

/-- The part of a concatenation inside its right operand. -/
theorem extractLsb'_append_right {n m : Nat} (a : BitVec n) (b : BitVec m) (lo len : Nat) (h : lo + len ≤ m) :
    (a ++ b).extractLsb' lo len = b.extractLsb' lo len := by
  refine BitVec.eq_of_getLsbD_eq fun k hk => ?_
  rw [BitVec.getLsbD_extractLsb', BitVec.getLsbD_extractLsb', BitVec.getLsbD_append, if_pos (by omega)]

@[simp] theorem extractLsb'_whole {n : Nat} (a : BitVec n) : a.extractLsb' 0 n = a := by
  refine BitVec.eq_of_getLsbD_eq fun k hk => ?_
  rw [BitVec.getLsbD_extractLsb']
  simp [hk]

/-- Masking a concatenation part by part. -/
theorem append_and_append {n m : Nat} (a a' : BitVec n) (b b' : BitVec m) :
    (a ++ b) &&& (a' ++ b') = (a &&& a') ++ (b &&& b') := by
  refine BitVec.eq_of_getLsbD_eq fun k hk => ?_
  simp only [BitVec.getLsbD_and, BitVec.getLsbD_append]
  split <;> rfl

/-- Every row's mask covers the opcode. -/
theorem OpcodeRow.opcode_eq_of_hits {row : OpcodeRow} (hrow : row ∈ opcodeTable) {w : CmdWord} (h : row.hits w = true) :
    opcodeOf w = opcodeOf row.pattern := by
  have hmask : opcodeOf row.mask = BitVec.allOnes 8 := by
    revert row
    simp only [opcodeTable, List.mem_cons, List.not_mem_nil, or_false]
    rintro row (rfl | rfl | rfl | rfl | rfl | rfl | rfl | rfl | rfl | rfl) - <;> decide
  have hw : w &&& row.mask = row.pattern := by simpa [OpcodeRow.hits] using h
  have := congrArg opcodeOf hw
  unfold opcodeOf byteAt at *
  rwa [BitVec.extractLsb'_and, hmask, BitVec.and_allOnes] at this

/-- The ten opcodes differ (30_encoding.md R50). -/
theorem opcodeTable_opcode_inj {r r' : OpcodeRow} (h : r ∈ opcodeTable) (h' : r' ∈ opcodeTable)
    (he : opcodeOf r.pattern = opcodeOf r'.pattern) : r = r' := by
  have hn : (opcodeTable.map fun row => opcodeOf row.pattern).Nodup := by decide
  exact List.inj_on_of_nodup_map hn h h' he

/-- The decoder's answer is the operands of the one row the word matches. -/
theorem decode_eq_ok_iff {w : CmdWord} {i : Instr} :
    decode w = .ok i ↔ ∃ row ∈ opcodeTable, row.hits w = true ∧ row.operands w = i := by
  constructor
  · intro h
    unfold decode at h
    split at h
    · rename_i row hrow
      exact ⟨row, List.mem_of_find?_eq_some hrow, by simpa using List.find?_some hrow, by simpa using h⟩
    · simp at h
  · rintro ⟨row, hmem, hhit, rfl⟩
    unfold decode
    split
    · rename_i row' hrow'
      have hmem' := List.mem_of_find?_eq_some hrow'
      have hhit' : row'.hits w = true := by simpa using List.find?_some hrow'
      rw [opcodeTable_opcode_inj hmem hmem'
        ((OpcodeRow.opcode_eq_of_hits hmem hhit).symm.trans (OpcodeRow.opcode_eq_of_hits hmem' hhit'))]
    · rename_i hnone
      have := List.find?_eq_none.1 hnone row hmem
      simp [hhit] at this

/-- A word is refused exactly when no row matches it (30_encoding.md R58). -/
theorem decode_eq_error_iff {w : CmdWord} :
    (∃ e, decode w = .error e) ↔ ∀ row ∈ opcodeTable, row.hits w = false := by
  constructor
  · rintro ⟨e, he⟩ row hrow
    by_contra hhit
    rw [decode_eq_ok_iff.2 ⟨row, hrow, by simpa using hhit, rfl⟩] at he
    simp at he
  · intro h
    cases hd : decode w with
    | error e => exact ⟨e, rfl⟩
    | ok i =>
      obtain ⟨row, hrow, hhit, -⟩ := decode_eq_ok_iff.1 hd
      simp [h row hrow] at hhit

end Sys2Proof
end

