-- ==== Sys2Proof/Laws/Memory.lean ====
section
/-! SUPPORT. The laws of the byte memory: read after write, canonical form, equality of canonical memories. -/

namespace Sys2Proof.Machine

@[simp] theorem Memory.read_nil (a : Nat) : Memory.read [] a = 0 := rfl

@[simp] theorem Memory.read_cons (k : Nat) (b : Byte) (m : Memory) (a : Nat) :
    Memory.read ((k, b) :: m) a = if k = a then b else Memory.read m a := rfl

@[simp] theorem Memory.wf_nil (size : Nat) : Memory.wf size [] = true := rfl

theorem Memory.wfFrom_cons {size lo k : Nat} {b : Byte} {m : Memory} :
    Memory.wfFrom size lo ((k, b) :: m) = true ↔
      lo ≤ k ∧ k < size ∧ b ≠ 0 ∧ Memory.wfFrom size (k + 1) m = true := by
  simp [Memory.wfFrom, and_assoc]

theorem Memory.wfFrom_mono {size lo lo' : Nat} (h : lo ≤ lo') :
    ∀ {m : Memory}, Memory.wfFrom size lo' m = true → Memory.wfFrom size lo m = true
  | [], _ => rfl
  | (_, _) :: _, hm => by
    rw [Memory.wfFrom_cons] at hm ⊢
    exact ⟨h.trans hm.1, hm.2⟩

/-- A canonical memory lists nothing below its lower bound. -/
theorem Memory.read_below {size : Nat} {a : Nat} :
    ∀ {lo : Nat} {m : Memory}, Memory.wfFrom size lo m = true → a < lo → Memory.read m a = 0
  | _, [], _, _ => rfl
  | _, (k, b) :: m, hm, ha => by
    rw [Memory.wfFrom_cons] at hm
    have hk : k ≠ a := by omega
    simp only [Memory.read_cons, if_neg hk]
    exact Memory.read_below hm.2.2.2 (by omega)

/-- A canonical memory of `size` bytes lists nothing from `size` on. -/
theorem Memory.read_beyond {size : Nat} {a : Nat} (ha : size ≤ a) :
    ∀ {lo : Nat} {m : Memory}, Memory.wfFrom size lo m = true → Memory.read m a = 0
  | _, [], _ => rfl
  | _, (k, b) :: m, hm => by
    rw [Memory.wfFrom_cons] at hm
    have hk : k ≠ a := by omega
    simp only [Memory.read_cons, if_neg hk]
    exact Memory.read_beyond ha hm.2.2.2

/-- A write leaves every other byte alone, whatever the form of the memory. -/
theorem Memory.read_write_other {a a' : Nat} (h : a' ≠ a) (b : Byte) :
    ∀ m : Memory, Memory.read (Memory.write m a b) a' = Memory.read m a'
  | [] => by
    unfold Memory.write
    split <;> simp [h.symm]
  | (k, c) :: m => by
    unfold Memory.write
    split
    · split <;> simp [h.symm]
    · split
      · rename_i hk
        subst hk
        split <;> simp [h.symm]
      · simp [Memory.read_write_other h b m]

/-- A read after a write to the same byte gives the value written. -/
theorem Memory.read_write_same {size a : Nat} (b : Byte) :
    ∀ {lo : Nat} {m : Memory}, Memory.wfFrom size lo m = true → Memory.read (Memory.write m a b) a = b
  | _, [], _ => by
    unfold Memory.write
    split <;> simp_all
  | _, (k, c) :: m, hm => by
    rw [Memory.wfFrom_cons] at hm
    unfold Memory.write
    split
    · rename_i hk
      split
      · rename_i hb
        have hne : k ≠ a := by omega
        simp only [Memory.read_cons, if_neg hne, hb]
        exact Memory.read_below hm.2.2.2 (by omega)
      · simp
    · split
      · rename_i hk
        subst hk
        split
        · rename_i hb
          rw [hb]
          exact Memory.read_below hm.2.2.2 (by omega)
        · simp
      · rename_i hk
        simp only [Memory.read_cons, if_neg (Ne.symm hk)]
        exact Memory.read_write_same b hm.2.2.2

/-- Everything a write does to what a canonical memory reads as. -/
theorem Memory.read_write {size : Nat} {m : Memory} (hm : Memory.wf size m = true) (a : Nat) (b : Byte) (a' : Nat) :
    Memory.read (Memory.write m a b) a' = if a' = a then b else Memory.read m a' := by
  split
  · rename_i h
    rw [h]
    exact Memory.read_write_same b hm
  · rename_i h
    exact Memory.read_write_other h b m

theorem Memory.wfFrom_write {size a : Nat} (b : Byte) (ha : a < size) :
    ∀ {lo : Nat} {m : Memory}, lo ≤ a → Memory.wfFrom size lo m = true →
      Memory.wfFrom size lo (Memory.write m a b) = true
  | lo, [], hl, _ => by
    unfold Memory.write
    split
    · rfl
    · rename_i hb
      rw [Memory.wfFrom_cons]
      exact ⟨hl, ha, hb, rfl⟩
  | lo, (k, c) :: m, hl, hm => by
    have hc := Memory.wfFrom_cons.1 hm
    unfold Memory.write
    split
    · rename_i hk
      split
      · exact hm
      · rename_i hb
        rw [Memory.wfFrom_cons]
        exact ⟨hl, ha, hb, Memory.wfFrom_cons.2 ⟨by omega, hc.2⟩⟩
    · split
      · rename_i hk
        subst hk
        split
        · exact Memory.wfFrom_mono (by omega) hc.2.2.2
        · rename_i hb
          rw [Memory.wfFrom_cons]
          exact ⟨hl, ha, hb, hc.2.2.2⟩
      · rw [Memory.wfFrom_cons]
        exact ⟨hc.1, hc.2.1, hc.2.2.1, Memory.wfFrom_write b ha (by omega) hc.2.2.2⟩

/-- A write inside the memory keeps the canonical form. -/
theorem Memory.wf_write {size : Nat} {m : Memory} (hm : Memory.wf size m = true) {a : Nat} (ha : a < size) (b : Byte) :
    Memory.wf size (Memory.write m a b) = true :=
  Memory.wfFrom_write b ha (Nat.zero_le a) hm

/-- Canonical memories that read alike are equal data. -/
theorem Memory.eq_of_read_eq {size : Nat} :
    ∀ {lo : Nat} {m m' : Memory}, Memory.wfFrom size lo m = true → Memory.wfFrom size lo m' = true →
      (∀ a, Memory.read m a = Memory.read m' a) → m = m'
  | _, [], [], _, _, _ => rfl
  | lo, [], (k, b) :: m', _, hm', h => by
    have hc := Memory.wfFrom_cons.1 hm'
    exact absurd (by simpa using (h k).symm) hc.2.2.1
  | lo, (k, b) :: m, [], hm, _, h => by
    have hc := Memory.wfFrom_cons.1 hm
    exact absurd (by simpa using h k) hc.2.2.1
  | lo, (k, b) :: m, (k', b') :: m', hm, hm', h => by
    have hc := Memory.wfFrom_cons.1 hm
    have hc' := Memory.wfFrom_cons.1 hm'
    have hk : k = k' := by
      rcases Nat.lt_trichotomy k k' with hlt | heq | hlt
      · have := h k
        rw [Memory.read_below (lo := k') (Memory.wfFrom_cons.2 ⟨le_refl _, hc'.2⟩) hlt] at this
        exact absurd (by simpa using this) hc.2.2.1
      · exact heq
      · have := h k'
        rw [Memory.read_below (lo := k) (Memory.wfFrom_cons.2 ⟨le_refl _, hc.2⟩) hlt] at this
        exact absurd (by simpa using this.symm) hc'.2.2.1
    subst hk
    have hb : b = b' := by simpa using h k
    subst hb
    have hrest : m = m' := by
      refine Memory.eq_of_read_eq hc.2.2.2 hc'.2.2.2 fun a => ?_
      by_cases ha : k = a
      · subst ha
        rw [Memory.read_below hc.2.2.2 (by omega), Memory.read_below hc'.2.2.2 (by omega)]
      · simpa [ha] using h a
    rw [hrest]

theorem Memory.ext_of_wf {size : Nat} {m m' : Memory} (hm : Memory.wf size m = true) (hm' : Memory.wf size m' = true)
    (h : ∀ a, Memory.read m a = Memory.read m' a) : m = m' :=
  Memory.eq_of_read_eq hm hm' h

end Sys2Proof.Machine
end

