-- ==== Sys2Proof/Laws/PerInstr.lean ====
section
/-! SUPPORT. Per-command families: for every command, the word the encoder writes matches the command's own row of the opcode table. -/

namespace Sys2Proof.Laws.EncodeHitsRow

/-- The encoded word matches the row that carries the command's name (30_encoding.md R50, R62). -/
def Statement (i : Instr) : Prop :=
  ∃ row ∈ opcodeTable, row.mnemonic = i.mnemonic ∧ row.hits (encode i) = true

theorem clear : Statement .clear :=
  ⟨_, List.mem_cons_self, rfl, by decide⟩

theorem setPixel (x y : Int) (v : Bool) : Statement (.setPixel x y v) := by
  refine ⟨opcodeTable[1], by simp [opcodeTable], rfl, ?_⟩
  have hm : (0xFFFE000000FFFFFF : CmdWord) = 0xFF#8 ++ 0x7F#7 ++ 0#1 ++ 0#12 ++ 0#12 ++ 0xFFFFFF#24 := by decide
  refine beq_iff_eq.2 ((congrArg (encode _ &&& ·) hm).trans ((append_and_append _ _ _ _).trans ?_))
  simp only [append_and_append, BitVec.and_zero]
  decide

theorem setCursor (x y : Int) : Statement (.setCursor x y) := by
  refine ⟨opcodeTable[2], by simp [opcodeTable], rfl, ?_⟩
  have hm : (0xFFFF000000FFFFFF : CmdWord) = 0xFF#8 ++ 0xFF#8 ++ 0#12 ++ 0#12 ++ 0xFFFFFF#24 := by decide
  refine beq_iff_eq.2 ((congrArg (encode _ &&& ·) hm).trans ((append_and_append _ _ _ _).trans ?_))
  simp only [append_and_append, BitVec.and_zero]
  decide

theorem writeChar (code scale : Nat) : Statement (.writeChar code scale) := by
  refine ⟨opcodeTable[3], by simp [opcodeTable], rfl, ?_⟩
  have hm : (0xFF0000FFFFFFFFFF : CmdWord) = 0xFF#8 ++ 0#8 ++ 0#8 ++ 0xFFFFFFFFFF#40 := by decide
  refine beq_iff_eq.2 ((congrArg (encode _ &&& ·) hm).trans ((append_and_append _ _ _ _).trans ?_))
  simp only [append_and_append, BitVec.and_zero]
  decide

theorem writeCharOpp (code scale : Nat) : Statement (.writeCharOpp code scale) := by
  refine ⟨opcodeTable[4], by simp [opcodeTable], rfl, ?_⟩
  have hm : (0xFF0000FFFFFFFFFF : CmdWord) = 0xFF#8 ++ 0#8 ++ 0#8 ++ 0xFFFFFFFFFF#40 := by decide
  refine beq_iff_eq.2 ((congrArg (encode _ &&& ·) hm).trans ((append_and_append _ _ _ _).trans ?_))
  simp only [append_and_append, BitVec.and_zero]
  decide

theorem registerGlyph (code : Nat) (g : Glyph) : Statement (.registerGlyph code g) := by
  refine ⟨opcodeTable[5], by simp [opcodeTable], rfl, ?_⟩
  have hm : (0xFFFF000000000000 : CmdWord) = 0xFF#8 ++ 0xFF#8 ++ 0#8 ++ 0#8 ++ 0#8 ++ 0#8 ++ 0#8 ++ 0#8 := by decide
  refine beq_iff_eq.2 ((congrArg (encode _ &&& ·) hm).trans ((append_and_append _ _ _ _).trans ?_))
  simp only [append_and_append, BitVec.and_zero]
  decide

theorem drawLine (x1 y1 x2 y2 : Int) : Statement (.drawLine x1 y1 x2 y2) := by
  refine ⟨opcodeTable[6], by simp [opcodeTable], rfl, ?_⟩
  have hm : (0xFFFF000000000000 : CmdWord) = 0xFF#8 ++ 0xFF#8 ++ 0#12 ++ 0#12 ++ 0#12 ++ 0#12 := by decide
  refine beq_iff_eq.2 ((congrArg (encode _ &&& ·) hm).trans ((append_and_append _ _ _ _).trans ?_))
  simp only [append_and_append, BitVec.and_zero]
  decide

theorem drawRect (x1 y1 x2 y2 : Int) : Statement (.drawRect x1 y1 x2 y2) := by
  refine ⟨opcodeTable[7], by simp [opcodeTable], rfl, ?_⟩
  have hm : (0xFFFF000000000000 : CmdWord) = 0xFF#8 ++ 0xFF#8 ++ 0#12 ++ 0#12 ++ 0#12 ++ 0#12 := by decide
  refine beq_iff_eq.2 ((congrArg (encode _ &&& ·) hm).trans ((append_and_append _ _ _ _).trans ?_))
  simp only [append_and_append, BitVec.and_zero]
  decide

theorem drawCircle (x0 y0 r : Int) : Statement (.drawCircle x0 y0 r) := by
  refine ⟨opcodeTable[8], by simp [opcodeTable], rfl, ?_⟩
  have hm : (0xFFFF000000000FFF : CmdWord) = 0xFF#8 ++ 0xFF#8 ++ 0#12 ++ 0#12 ++ 0#12 ++ 0xFFF#12 := by decide
  refine beq_iff_eq.2 ((congrArg (encode _ &&& ·) hm).trans ((append_and_append _ _ _ _).trans ?_))
  simp only [append_and_append, BitVec.and_zero]
  decide

theorem render : Statement .render :=
  ⟨opcodeTable[9], by simp [opcodeTable], rfl, by decide⟩

end Sys2Proof.Laws.EncodeHitsRow
end

