-- ==== Sys2Proof/Laws/State.lean ====
section
/-! SUPPORT. One lemma per field per update of the state, so that no later proof unfolds a record update. -/

namespace Sys2Proof.Machine

/-! ## moveCursor -/

@[simp] theorem moveCursor_fb (x y : Int) (s : State) : (moveCursor x y s).fb = s.fb := rfl
@[simp] theorem moveCursor_cursorX (x y : Int) (s : State) : (moveCursor x y s).cursorX = BitVec.ofInt 12 x := rfl
@[simp] theorem moveCursor_cursorY (x y : Int) (s : State) : (moveCursor x y s).cursorY = BitVec.ofInt 12 y := rfl
@[simp] theorem moveCursor_gram (x y : Int) (s : State) : (moveCursor x y s).gram = s.gram := rfl
@[simp] theorem moveCursor_gvalid (x y : Int) (s : State) : (moveCursor x y s).gvalid = s.gvalid := rfl
@[simp] theorem moveCursor_busy (x y : Int) (s : State) : (moveCursor x y s).busy = s.busy := rfl
@[simp] theorem moveCursor_errOob (x y : Int) (s : State) : (moveCursor x y s).errOob = s.errOob := rfl
@[simp] theorem moveCursor_errIll (x y : Int) (s : State) : (moveCursor x y s).errIll = s.errIll := rfl
@[simp] theorem moveCursor_tx (x y : Int) (s : State) : (moveCursor x y s).tx = s.tx := rfl
@[simp] theorem moveCursor_inputs (x y : Int) (s : State) : (moveCursor x y s).inputs = s.inputs := rfl

/-! ## clearFb -/

@[simp] theorem clearFb_fb (s : State) : (clearFb s).fb = [] := rfl
@[simp] theorem clearFb_cursorX (s : State) : (clearFb s).cursorX = s.cursorX := rfl
@[simp] theorem clearFb_cursorY (s : State) : (clearFb s).cursorY = s.cursorY := rfl
@[simp] theorem clearFb_gram (s : State) : (clearFb s).gram = s.gram := rfl
@[simp] theorem clearFb_gvalid (s : State) : (clearFb s).gvalid = s.gvalid := rfl
@[simp] theorem clearFb_busy (s : State) : (clearFb s).busy = s.busy := rfl
@[simp] theorem clearFb_errOob (s : State) : (clearFb s).errOob = s.errOob := rfl
@[simp] theorem clearFb_errIll (s : State) : (clearFb s).errIll = s.errIll := rfl
@[simp] theorem clearFb_tx (s : State) : (clearFb s).tx = s.tx := rfl
@[simp] theorem clearFb_inputs (s : State) : (clearFb s).inputs = s.inputs := rfl

/-! ## storeGlyph -/

@[simp] theorem storeGlyph_fb (c : Nat) (g : Glyph) (s : State) : (storeGlyph c g s).fb = s.fb := rfl
@[simp] theorem storeGlyph_cursorX (c : Nat) (g : Glyph) (s : State) : (storeGlyph c g s).cursorX = s.cursorX := rfl
@[simp] theorem storeGlyph_cursorY (c : Nat) (g : Glyph) (s : State) : (storeGlyph c g s).cursorY = s.cursorY := rfl
@[simp] theorem storeGlyph_gram (c : Nat) (g : Glyph) (s : State) : (storeGlyph c g s).gram = writeGlyphBytes s.gram c g := rfl
@[simp] theorem storeGlyph_gvalid (c : Nat) (g : Glyph) (s : State) : (storeGlyph c g s).gvalid = s.gvalid ||| BitVec.twoPow 32 c := rfl
@[simp] theorem storeGlyph_busy (c : Nat) (g : Glyph) (s : State) : (storeGlyph c g s).busy = s.busy := rfl
@[simp] theorem storeGlyph_errOob (c : Nat) (g : Glyph) (s : State) : (storeGlyph c g s).errOob = s.errOob := rfl
@[simp] theorem storeGlyph_errIll (c : Nat) (g : Glyph) (s : State) : (storeGlyph c g s).errIll = s.errIll := rfl
@[simp] theorem storeGlyph_tx (c : Nat) (g : Glyph) (s : State) : (storeGlyph c g s).tx = s.tx := rfl
@[simp] theorem storeGlyph_inputs (c : Nat) (g : Glyph) (s : State) : (storeGlyph c g s).inputs = s.inputs := rfl

/-! ## emitAll -/

@[simp] theorem emitAll_fb (l : List TxItem) (s : State) : (emitAll l s).fb = s.fb := rfl
@[simp] theorem emitAll_cursorX (l : List TxItem) (s : State) : (emitAll l s).cursorX = s.cursorX := rfl
@[simp] theorem emitAll_cursorY (l : List TxItem) (s : State) : (emitAll l s).cursorY = s.cursorY := rfl
@[simp] theorem emitAll_gram (l : List TxItem) (s : State) : (emitAll l s).gram = s.gram := rfl
@[simp] theorem emitAll_gvalid (l : List TxItem) (s : State) : (emitAll l s).gvalid = s.gvalid := rfl
@[simp] theorem emitAll_busy (l : List TxItem) (s : State) : (emitAll l s).busy = s.busy := rfl
@[simp] theorem emitAll_errOob (l : List TxItem) (s : State) : (emitAll l s).errOob = s.errOob := rfl
@[simp] theorem emitAll_errIll (l : List TxItem) (s : State) : (emitAll l s).errIll = s.errIll := rfl
@[simp] theorem emitAll_tx (l : List TxItem) (s : State) : (emitAll l s).tx = s.tx ++ l := rfl
@[simp] theorem emitAll_inputs (l : List TxItem) (s : State) : (emitAll l s).inputs = s.inputs := rfl

/-! ## accept -/

@[simp] theorem accept_fb (r : List HostEvent) (s : State) : (accept r s).fb = s.fb := rfl
@[simp] theorem accept_cursorX (r : List HostEvent) (s : State) : (accept r s).cursorX = s.cursorX := rfl
@[simp] theorem accept_cursorY (r : List HostEvent) (s : State) : (accept r s).cursorY = s.cursorY := rfl
@[simp] theorem accept_gram (r : List HostEvent) (s : State) : (accept r s).gram = s.gram := rfl
@[simp] theorem accept_gvalid (r : List HostEvent) (s : State) : (accept r s).gvalid = s.gvalid := rfl
@[simp] theorem accept_busy (r : List HostEvent) (s : State) : (accept r s).busy = true := rfl
@[simp] theorem accept_errOob (r : List HostEvent) (s : State) : (accept r s).errOob = s.errOob := rfl
@[simp] theorem accept_errIll (r : List HostEvent) (s : State) : (accept r s).errIll = s.errIll := rfl
@[simp] theorem accept_tx (r : List HostEvent) (s : State) : (accept r s).tx = s.tx := rfl
@[simp] theorem accept_inputs (r : List HostEvent) (s : State) : (accept r s).inputs = r := rfl

/-! ## complete -/

@[simp] theorem complete_fb (s : State) : (complete s).fb = s.fb := rfl
@[simp] theorem complete_cursorX (s : State) : (complete s).cursorX = s.cursorX := rfl
@[simp] theorem complete_cursorY (s : State) : (complete s).cursorY = s.cursorY := rfl
@[simp] theorem complete_gram (s : State) : (complete s).gram = s.gram := rfl
@[simp] theorem complete_gvalid (s : State) : (complete s).gvalid = s.gvalid := rfl
@[simp] theorem complete_busy (s : State) : (complete s).busy = false := rfl
@[simp] theorem complete_errOob (s : State) : (complete s).errOob = s.errOob := rfl
@[simp] theorem complete_errIll (s : State) : (complete s).errIll = s.errIll := rfl
@[simp] theorem complete_tx (s : State) : (complete s).tx = s.tx := rfl
@[simp] theorem complete_inputs (s : State) : (complete s).inputs = s.inputs := rfl

/-! ## presentNext -/

@[simp] theorem presentNext_fb (w : CmdWord) (s : State) : (presentNext w s).fb = s.fb := rfl
@[simp] theorem presentNext_cursorX (w : CmdWord) (s : State) : (presentNext w s).cursorX = s.cursorX := rfl
@[simp] theorem presentNext_cursorY (w : CmdWord) (s : State) : (presentNext w s).cursorY = s.cursorY := rfl
@[simp] theorem presentNext_gram (w : CmdWord) (s : State) : (presentNext w s).gram = s.gram := rfl
@[simp] theorem presentNext_gvalid (w : CmdWord) (s : State) : (presentNext w s).gvalid = s.gvalid := rfl
@[simp] theorem presentNext_busy (w : CmdWord) (s : State) : (presentNext w s).busy = false := rfl
@[simp] theorem presentNext_errOob (w : CmdWord) (s : State) : (presentNext w s).errOob = s.errOob := rfl
@[simp] theorem presentNext_errIll (w : CmdWord) (s : State) : (presentNext w s).errIll = s.errIll := rfl
@[simp] theorem presentNext_tx (w : CmdWord) (s : State) : (presentNext w s).tx = s.tx := rfl
@[simp] theorem presentNext_inputs (w : CmdWord) (s : State) : (presentNext w s).inputs = .word w :: s.inputs := rfl

/-! ## raise -/

@[simp] theorem raise_fb (c : Condition) (s : State) : (raise c s).fb = s.fb := by cases c <;> rfl
@[simp] theorem raise_cursorX (c : Condition) (s : State) : (raise c s).cursorX = s.cursorX := by cases c <;> rfl
@[simp] theorem raise_cursorY (c : Condition) (s : State) : (raise c s).cursorY = s.cursorY := by cases c <;> rfl
@[simp] theorem raise_gram (c : Condition) (s : State) : (raise c s).gram = s.gram := by cases c <;> rfl
@[simp] theorem raise_gvalid (c : Condition) (s : State) : (raise c s).gvalid = s.gvalid := by cases c <;> rfl
@[simp] theorem raise_busy (c : Condition) (s : State) : (raise c s).busy = s.busy := by cases c <;> rfl
@[simp] theorem raise_tx (c : Condition) (s : State) : (raise c s).tx = s.tx := by cases c <;> rfl
@[simp] theorem raise_inputs (c : Condition) (s : State) : (raise c s).inputs = s.inputs := by cases c <;> rfl
@[simp] theorem raise_errOob (c : Condition) (s : State) :
    (raise c s).errOob = (s.errOob || c == .outOfBounds) := by cases c <;> simp [raise]
@[simp] theorem raise_errIll (c : Condition) (s : State) :
    (raise c s).errIll = (s.errIll || c == .illegalWord) := by cases c <;> simp [raise]
@[simp] theorem raise_rejectedCode (s : State) : raise .rejectedCode s = s := rfl
@[simp] theorem raise_rejectedRegistration (s : State) : raise .rejectedRegistration s = s := rfl
@[simp] theorem raise_cursorOverflow (s : State) : raise .cursorOverflow s = s := rfl

/-! ## plot -/

@[simp] theorem plot_cursorX (x y : Int) (v : Bool) (s : State) : (plot x y v s).cursorX = s.cursorX := by
  unfold plot; split <;> simp
@[simp] theorem plot_cursorY (x y : Int) (v : Bool) (s : State) : (plot x y v s).cursorY = s.cursorY := by
  unfold plot; split <;> simp
@[simp] theorem plot_gram (x y : Int) (v : Bool) (s : State) : (plot x y v s).gram = s.gram := by
  unfold plot; split <;> simp
@[simp] theorem plot_gvalid (x y : Int) (v : Bool) (s : State) : (plot x y v s).gvalid = s.gvalid := by
  unfold plot; split <;> simp
@[simp] theorem plot_busy (x y : Int) (v : Bool) (s : State) : (plot x y v s).busy = s.busy := by
  unfold plot; split <;> simp
@[simp] theorem plot_errIll (x y : Int) (v : Bool) (s : State) : (plot x y v s).errIll = s.errIll := by
  unfold plot; split <;> simp
@[simp] theorem plot_tx (x y : Int) (v : Bool) (s : State) : (plot x y v s).tx = s.tx := by
  unfold plot; split <;> simp
@[simp] theorem plot_inputs (x y : Int) (v : Bool) (s : State) : (plot x y v s).inputs = s.inputs := by
  unfold plot; split <;> simp
@[simp] theorem plot_errOob (x y : Int) (v : Bool) (s : State) :
    (plot x y v s).errOob = (s.errOob || !inBounds x y) := by
  unfold plot; split <;> simp_all
theorem plot_fb_inBounds {x y : Int} (h : inBounds x y = true) (v : Bool) (s : State) :
    (plot x y v s).fb = Memory.write s.fb (fbIndex x y) (withBit (Memory.read s.fb (fbIndex x y)) (fbBit y) v) := by
  simp [plot, h]
theorem plot_fb_outOfBounds {x y : Int} (h : inBounds x y = false) (v : Bool) (s : State) :
    (plot x y v s).fb = s.fb := by
  simp [plot, h]

/-! ## plotAll -/

@[simp] theorem plotAll_nil (s : State) : plotAll [] s = s := rfl
@[simp] theorem plotAll_cons (d : Dot) (l : List Dot) (s : State) :
    plotAll (d :: l) s = plotAll l (plot d.x d.y d.v s) := rfl
theorem plotAll_append (l l' : List Dot) (s : State) : plotAll (l ++ l') s = plotAll l' (plotAll l s) := by
  simp [plotAll]
@[simp] theorem plotAll_cursorX (l : List Dot) (s : State) : (plotAll l s).cursorX = s.cursorX := by
  induction l generalizing s with
  | nil => rfl
  | cons d l ih => simp [ih]
@[simp] theorem plotAll_cursorY (l : List Dot) (s : State) : (plotAll l s).cursorY = s.cursorY := by
  induction l generalizing s with
  | nil => rfl
  | cons d l ih => simp [ih]
@[simp] theorem plotAll_gram (l : List Dot) (s : State) : (plotAll l s).gram = s.gram := by
  induction l generalizing s with
  | nil => rfl
  | cons d l ih => simp [ih]
@[simp] theorem plotAll_gvalid (l : List Dot) (s : State) : (plotAll l s).gvalid = s.gvalid := by
  induction l generalizing s with
  | nil => rfl
  | cons d l ih => simp [ih]
@[simp] theorem plotAll_busy (l : List Dot) (s : State) : (plotAll l s).busy = s.busy := by
  induction l generalizing s with
  | nil => rfl
  | cons d l ih => simp [ih]
@[simp] theorem plotAll_errIll (l : List Dot) (s : State) : (plotAll l s).errIll = s.errIll := by
  induction l generalizing s with
  | nil => rfl
  | cons d l ih => simp [ih]
@[simp] theorem plotAll_tx (l : List Dot) (s : State) : (plotAll l s).tx = s.tx := by
  induction l generalizing s with
  | nil => rfl
  | cons d l ih => simp [ih]
@[simp] theorem plotAll_inputs (l : List Dot) (s : State) : (plotAll l s).inputs = s.inputs := by
  induction l generalizing s with
  | nil => rfl
  | cons d l ih => simp [ih]
@[simp] theorem plotAll_errOob (l : List Dot) (s : State) :
    (plotAll l s).errOob = (s.errOob || l.any fun d => !inBounds d.x d.y) := by
  induction l generalizing s with
  | nil => simp
  | cons d l ih => simp [ih, Bool.or_assoc]

/-! ## advanceCursor -/

@[simp] theorem advanceCursor_fb (n : Nat) (s : State) : (advanceCursor n s).fb = s.fb := by
  simp only [advanceCursor]; split
  · split <;> simp
  · simp
@[simp] theorem advanceCursor_gram (n : Nat) (s : State) : (advanceCursor n s).gram = s.gram := by
  simp only [advanceCursor]; split
  · split <;> simp
  · simp
@[simp] theorem advanceCursor_gvalid (n : Nat) (s : State) : (advanceCursor n s).gvalid = s.gvalid := by
  simp only [advanceCursor]; split
  · split <;> simp
  · simp
@[simp] theorem advanceCursor_busy (n : Nat) (s : State) : (advanceCursor n s).busy = s.busy := by
  simp only [advanceCursor]; split
  · split <;> simp
  · simp
@[simp] theorem advanceCursor_errOob (n : Nat) (s : State) : (advanceCursor n s).errOob = s.errOob := by
  simp only [advanceCursor]; split
  · split <;> simp
  · simp
@[simp] theorem advanceCursor_errIll (n : Nat) (s : State) : (advanceCursor n s).errIll = s.errIll := by
  simp only [advanceCursor]; split
  · split <;> simp
  · simp
@[simp] theorem advanceCursor_tx (n : Nat) (s : State) : (advanceCursor n s).tx = s.tx := by
  simp only [advanceCursor]; split
  · split <;> simp
  · simp
@[simp] theorem advanceCursor_inputs (n : Nat) (s : State) : (advanceCursor n s).inputs = s.inputs := by
  simp only [advanceCursor]; split
  · split <;> simp
  · simp

end Sys2Proof.Machine
end

