-- ==== Sys2Proof/Laws/Plot.lean ====
section
/-! SUPPORT. What a plot, and a list of plots, can do: to the pixels, to the bytes, to the canonical form. -/

namespace Sys2Proof.Machine

theorem inBounds_iff {x y : Int} : inBounds x y = true ↔ 0 ≤ x ∧ x < 84 ∧ 0 ≤ y ∧ y < 48 := by
  simp [inBounds, and_assoc]

theorem inBounds_eq_false_iff {x y : Int} : inBounds x y = false ↔ ¬ (0 ≤ x ∧ x < 84 ∧ 0 ≤ y ∧ y < 48) := by
  rw [← inBounds_iff, Bool.not_eq_true]

/-! ## The pixel map (20_memory.md R33) -/

theorem fbIndex_lt {x y : Int} (h : inBounds x y = true) : fbIndex x y < 504 := by
  rw [inBounds_iff] at h
  simp only [fbIndex, Config.width]
  omega

theorem fbBit_lt (y : Int) : fbBit y < 8 := by
  simp only [fbBit]
  omega

/-- Two pixels of the display that share their byte and their bit are one pixel. -/
theorem fbIndex_fbBit_inj {x y a b : Int} (h : inBounds x y = true) (h' : inBounds a b = true)
    (hi : fbIndex a b = fbIndex x y) (hb : fbBit b = fbBit y) : a = x ∧ b = y := by
  rw [inBounds_iff] at h h'
  simp only [fbIndex, fbBit, Config.width] at hi hb
  omega

theorem getLsbD_withBit {old : Byte} {k j : Nat} (hk : k < 8) (hj : j < 8) (v : Bool) :
    (withBit old k v).getLsbD j = if j = k then v else old.getLsbD j := by
  cases v <;>
    simp only [withBit, Bool.false_eq_true, if_true, if_false, BitVec.getLsbD_or, BitVec.getLsbD_and,
      BitVec.getLsbD_not, BitVec.getLsbD_shiftLeft, BitVec.getLsbD_one, hj, decide_true, Bool.true_and] <;>
    by_cases hjk : j = k <;> by_cases hlt : j < k <;> simp_all <;> omega

/-! ## One plot (20_memory.md R36) -/

theorem plot_fb_wf {s : State} (hs : Memory.wf 504 s.fb = true) (x y : Int) (v : Bool) :
    Memory.wf 504 (plot x y v s).fb = true := by
  cases h : inBounds x y
  · rw [plot_fb_outOfBounds h]
    exact hs
  · rw [plot_fb_inBounds h]
    exact Memory.wf_write hs (fbIndex_lt h) _

/-- A plot leaves every byte but its pixel's alone. -/
theorem read_plot_other {x y : Int} {a : Nat} (h : inBounds x y = true → fbIndex x y ≠ a) (v : Bool) (s : State) :
    Memory.read (plot x y v s).fb a = Memory.read s.fb a := by
  cases hb : inBounds x y
  · rw [plot_fb_outOfBounds hb]
  · rw [plot_fb_inBounds hb]
    exact Memory.read_write_other (h hb).symm _ _

/-- Everything a plot does to the pixels. -/
theorem pixel_plot {s : State} (hs : Memory.wf 504 s.fb = true) (x y : Int) (v : Bool) (a b : Int) :
    pixel a b (plot x y v s) = if a = x ∧ b = y ∧ inBounds x y = true then v else pixel a b s := by
  cases hab : inBounds a b
  · have : ¬ (a = x ∧ b = y ∧ inBounds x y = true) := by
      rintro ⟨rfl, rfl, h⟩
      simp [hab] at h
    simp [pixel, hab, this]
  · cases hxy : inBounds x y
    · simp [pixel, plot_fb_outOfBounds hxy]
    · simp only [pixel, hab, if_true, plot_fb_inBounds hxy, Memory.read_write hs, and_true]
      by_cases hi : fbIndex a b = fbIndex x y
      · simp only [hi, if_true, getLsbD_withBit (fbBit_lt y) (fbBit_lt b)]
        by_cases hb : fbBit b = fbBit y
        · obtain ⟨rfl, rfl⟩ := fbIndex_fbBit_inj hxy hab hi hb
          simp
        · have : ¬ (a = x ∧ b = y) := fun h => hb (by rw [h.2])
          simp [hb, this]
      · have : ¬ (a = x ∧ b = y) := fun h => hi (by rw [h.1, h.2])
        simp [hi, this]

/-! ## Many plots -/

theorem plotAll_fb_wf {s : State} (hs : Memory.wf 504 s.fb = true) (l : List Dot) :
    Memory.wf 504 (plotAll l s).fb = true := by
  induction l generalizing s with
  | nil => exact hs
  | cons d l ih => exact ih (plot_fb_wf hs d.x d.y d.v)

/-- A byte that holds the pixel of no dot keeps its value. -/
theorem read_plotAll_other {l : List Dot} {a : Nat}
    (h : ∀ d ∈ l, inBounds d.x d.y = true → fbIndex d.x d.y ≠ a) (s : State) :
    Memory.read (plotAll l s).fb a = Memory.read s.fb a := by
  induction l generalizing s with
  | nil => rfl
  | cons d l ih =>
    rw [plotAll_cons, ih (fun e he => h e (List.mem_cons_of_mem _ he)),
      read_plot_other (h d List.mem_cons_self)]

/-- A pixel no dot names keeps its value. -/
theorem pixel_plotAll_of_forall_ne {s : State} (hs : Memory.wf 504 s.fb = true) {l : List Dot} {a b : Int}
    (h : ∀ d ∈ l, ¬ (d.x = a ∧ d.y = b)) : pixel a b (plotAll l s) = pixel a b s := by
  induction l generalizing s with
  | nil => rfl
  | cons d l ih =>
    rw [plotAll_cons, ih (plot_fb_wf hs _ _ _) fun e he => h e (List.mem_cons_of_mem _ he), pixel_plot hs, if_neg]
    rintro ⟨h1, h2, -⟩
    exact h d List.mem_cons_self ⟨h1.symm, h2.symm⟩

/-- A pixel of the display that some dot names, all such dots having one value, gets that value. -/
theorem pixel_plotAll_of_mem {s : State} (hs : Memory.wf 504 s.fb = true) {l : List Dot} {a b : Int} {v : Bool}
    (hab : inBounds a b = true) (hmem : ∃ d ∈ l, d.x = a ∧ d.y = b) (hv : ∀ d ∈ l, d.x = a → d.y = b → d.v = v) :
    pixel a b (plotAll l s) = v := by
  induction l generalizing s with
  | nil => simp at hmem
  | cons d l ih =>
    rw [plotAll_cons]
    by_cases hl : ∃ e ∈ l, e.x = a ∧ e.y = b
    · exact ih (plot_fb_wf hs _ _ _) hl fun e he => hv e (List.mem_cons_of_mem _ he)
    · rw [pixel_plotAll_of_forall_ne (plot_fb_wf hs _ _ _) fun e he h => hl ⟨e, he, h⟩, pixel_plot hs]
      obtain ⟨e, he, hx, hy⟩ := hmem
      rcases List.mem_cons.1 he with rfl | he'
      · rw [if_pos ⟨hx.symm, hy.symm, by rw [hx, hy]; exact hab⟩]
        exact hv _ List.mem_cons_self hx hy
      · exact absurd ⟨e, he', hx, hy⟩ hl

/-- Lines, rectangles and circles OR their point set into the array (41_rasterizer.md R69). -/
theorem pixel_plotAll_setDots {s : State} (hs : Memory.wf 504 s.fb = true) (points : List (Int × Int)) {a b : Int}
    (hab : inBounds a b = true) :
    pixel a b (plotAll (setDots points) s) = (pixel a b s || decide ((a, b) ∈ points)) := by
  by_cases h : (a, b) ∈ points
  · simp only [h, decide_true, Bool.or_true]
    refine pixel_plotAll_of_mem hs hab ⟨⟨a, b, true⟩, ?_, rfl, rfl⟩ ?_
    · exact List.mem_map.2 ⟨(a, b), h, rfl⟩
    · rintro d hd - -
      obtain ⟨p, -, rfl⟩ := List.mem_map.1 hd
      rfl
  · simp only [h, decide_false, Bool.or_false]
    refine pixel_plotAll_of_forall_ne hs ?_
    rintro d hd ⟨rfl, rfl⟩
    obtain ⟨p, hp, rfl⟩ := List.mem_map.1 hd
    exact h hp

theorem plotAll_setDots_errOob (points : List (Int × Int)) (s : State) :
    (plotAll (setDots points) s).errOob = (s.errOob || points.any fun p => !inBounds p.1 p.2) := by
  simp [setDots, List.any_map, Function.comp_def]

/-- Two states whose arrays are canonical and show the same pixels have the same array. -/
theorem fb_eq_of_pixel_eq {s t : State} (hs : Memory.wf 504 s.fb = true) (ht : Memory.wf 504 t.fb = true)
    (h : ∀ x y, pixel x y s = pixel x y t) : s.fb = t.fb := by
  refine Memory.ext_of_wf hs ht fun a => ?_
  by_cases ha : a < 504
  · refine BitVec.eq_of_getLsbD_eq fun k hk => ?_
    have hp := h ((a % 84 : Nat) : Int) ((a / 84 * 8 + k : Nat) : Int)
    have hin : inBounds ((a % 84 : Nat) : Int) ((a / 84 * 8 + k : Nat) : Int) = true := by
      rw [inBounds_iff]
      omega
    have hidx : fbIndex ((a % 84 : Nat) : Int) ((a / 84 * 8 + k : Nat) : Int) = a := by
      simp only [fbIndex, Config.width]
      omega
    have hbit : fbBit ((a / 84 * 8 + k : Nat) : Int) = k := by
      simp only [fbBit]
      omega
    simpa only [pixel, hin, hidx, hbit, if_true] using hp
  · rw [Memory.read_beyond (by omega) hs, Memory.read_beyond (by omega) ht]

end Sys2Proof.Machine
end

