-- ==== Sys2Proof/Laws/Text.lean ====
section
/-! SUPPORT. What the text engine's shared operations compute: the cell's dots, the cursor advance, the glyph store. -/

namespace Sys2Proof.Machine

/-- An `i12` register holds any value of its range unchanged (00_scope.md R8). -/
theorem toInt_ofInt_i12 {c : Int} (h1 : -2048 ≤ c) (h2 : c ≤ 2047) : (BitVec.ofInt 12 c).toInt = c := by
  rw [BitVec.toInt_ofInt]
  exact Int.bmod_eq_of_le (by omega) (by omega)

theorem toInt_i12_bounds (c : CursorReg) : -2048 ≤ c.toInt ∧ c.toInt ≤ 2047 := by
  have h1 := BitVec.le_toInt c
  have h2 := BitVec.toInt_lt (x := c)
  constructor <;> simp at h1 h2 <;> omega

/-! ## The cell (42_text_engine.md R80 to R83) -/

theorem mem_cellDots {o : Orientation} {g : Glyph} {scale : Nat} {cx cy : Int} {d : Dot} :
    d ∈ cellDots o g scale cx cy ↔
      ∃ x < cellWidth o scale, ∃ y < cellHeight o scale, d = ⟨cx + x, cy + y, cellBit o g scale x y⟩ := by
  simp only [cellDots, List.mem_flatMap, List.mem_map, List.mem_range, eq_comm]

/-- Inside the cell the array shows the glyph's bit, whatever it held (90_conflicts.md C6). -/
theorem pixel_plotAll_cellDots_inside {s : State} (hs : Memory.wf 504 s.fb = true) {o : Orientation} {g : Glyph}
    {scale : Nat} {cx cy a b : Int} (hab : inBounds a b = true) (ha : cx ≤ a ∧ a < cx + cellWidth o scale)
    (hb : cy ≤ b ∧ b < cy + cellHeight o scale) :
    pixel a b (plotAll (cellDots o g scale cx cy) s) = cellBit o g scale (a - cx).toNat (b - cy).toNat := by
  refine pixel_plotAll_of_mem hs hab ⟨⟨a, b, cellBit o g scale (a - cx).toNat (b - cy).toNat⟩, ?_, rfl, rfl⟩ ?_
  · rw [mem_cellDots]
    refine ⟨(a - cx).toNat, by omega, (b - cy).toNat, by omega, ?_⟩
    simp only [Dot.mk.injEq, and_true]
    omega
  · rintro d hd rfl rfl
    obtain ⟨x, -, y, -, rfl⟩ := mem_cellDots.1 hd
    simp

/-- Outside the cell nothing is touched. -/
theorem pixel_plotAll_cellDots_outside {s : State} (hs : Memory.wf 504 s.fb = true) {o : Orientation} {g : Glyph}
    {scale : Nat} {cx cy a b : Int}
    (h : ¬ ((cx ≤ a ∧ a < cx + cellWidth o scale) ∧ (cy ≤ b ∧ b < cy + cellHeight o scale))) :
    pixel a b (plotAll (cellDots o g scale cx cy) s) = pixel a b s := by
  refine pixel_plotAll_of_forall_ne hs ?_
  rintro d hd ⟨rfl, rfl⟩
  obtain ⟨x, hx, y, hy, rfl⟩ := mem_cellDots.1 hd
  dsimp only at h
  omega

/-! ## The cursor advance (42_text_engine.md R84) -/

/-- The registers after an advance, as the integers they denote: no truncation happens. -/
theorem advanceCursor_toInt (scale : Nat) (s : State) :
    ((advanceCursor scale s).cursorX.toInt, (advanceCursor scale s).cursorY.toInt) =
      if s.cursorX.toInt + 5 * scale + 1 ≥ 84 then
        (0, if s.cursorY.toInt + 7 * scale + 1 ≥ 48 then 0 else s.cursorY.toInt + 7 * scale + 1)
      else (s.cursorX.toInt + 5 * scale + 1, s.cursorY.toInt) := by
  have hx := toInt_i12_bounds s.cursorX
  have hy := toInt_i12_bounds s.cursorY
  simp only [advanceCursor, Config.width, Config.height, Nat.cast_ofNat]
  split
  · split
    · simp
    · simp only [moveCursor_cursorX, moveCursor_cursorY, Prod.mk.injEq]
      exact ⟨toInt_ofInt_i12 (by omega) (by omega), toInt_ofInt_i12 (by omega) (by omega)⟩
  · simp only [moveCursor_cursorX, moveCursor_cursorY, Prod.mk.injEq]
    exact ⟨toInt_ofInt_i12 (by omega) (by omega), toInt_ofInt_i12 (by omega) (by omega)⟩

/-! ## Character writes -/

theorem putChar_of_none {o : Orientation} {code scale : Nat} {s : State} (h : glyphLookup code s = none) :
    putChar o code scale s = s := by simp [putChar, h]

theorem putChar_of_some {o : Orientation} {code scale : Nat} {s : State} {g : Glyph} (h : glyphLookup code s = some g) :
    putChar o code scale s = advanceCursor scale (plotAll (cellDots o g scale s.cursorX.toInt s.cursorY.toInt) s) := by
  simp [putChar, h]

/-- A code is rejected exactly from 0x80 on. -/
theorem glyphLookup_eq_none_iff {code : Nat} {s : State} : glyphLookup code s = none ↔ 0x80 ≤ code := by
  unfold glyphLookup
  simp only [Config.codeLimit, Config.firstPrintable]
  split
  · simp_all
  · split
    · simp_all
    · split <;> simp_all

/-! ## The glyph store (42_text_engine.md R88) -/

theorem writeGlyphBytes_wf {m : Memory} (hm : Memory.wf 160 m = true) {slot : Nat} (h : slot < 32) (g : Glyph) :
    Memory.wf 160 (writeGlyphBytes m slot g) = true := by
  unfold writeGlyphBytes gramIndex
  exact Memory.wf_write (Memory.wf_write (Memory.wf_write (Memory.wf_write (Memory.wf_write hm (by omega) _) (by omega) _)
    (by omega) _) (by omega) _) (by omega) _

/-- The store of a slot, read back byte by byte. -/
theorem read_writeGlyphBytes {m : Memory} (hm : Memory.wf 160 m = true) {slot : Nat} (h : slot < 32) (g : Glyph) (a : Nat) :
    Memory.read (writeGlyphBytes m slot g) a =
      if a = 5 * slot + 4 then g.g4 else if a = 5 * slot + 3 then g.g3 else if a = 5 * slot + 2 then g.g2
      else if a = 5 * slot + 1 then g.g1 else if a = 5 * slot then g.g0 else Memory.read m a := by
  have h0 := Memory.wf_write hm (show gramIndex slot 0 < 160 by unfold gramIndex; omega) g.g0
  have h1 := Memory.wf_write h0 (show gramIndex slot 1 < 160 by unfold gramIndex; omega) g.g1
  have h2 := Memory.wf_write h1 (show gramIndex slot 2 < 160 by unfold gramIndex; omega) g.g2
  have h3 := Memory.wf_write h2 (show gramIndex slot 3 < 160 by unfold gramIndex; omega) g.g3
  unfold writeGlyphBytes
  rw [Memory.read_write h3, Memory.read_write h2, Memory.read_write h1, Memory.read_write h0, Memory.read_write hm]
  simp only [gramIndex, add_zero]

end Sys2Proof.Machine
end

