-- ==== Sys2Proof/Laws/Step.lean ====
section
/-! SUPPORT. What a command and a step can do: they always answer a next state; the inversion of a step; the canonical form is kept. -/

namespace Sys2Proof.Machine

/-! ## Character writes leave the rest of the state alone -/

@[simp] theorem putChar_gram (o : Orientation) (c n : Nat) (s : State) : (putChar o c n s).gram = s.gram := by
  unfold putChar; split <;> simp
@[simp] theorem putChar_gvalid (o : Orientation) (c n : Nat) (s : State) : (putChar o c n s).gvalid = s.gvalid := by
  unfold putChar; split <;> simp
@[simp] theorem putChar_busy (o : Orientation) (c n : Nat) (s : State) : (putChar o c n s).busy = s.busy := by
  unfold putChar; split <;> simp
@[simp] theorem putChar_errIll (o : Orientation) (c n : Nat) (s : State) : (putChar o c n s).errIll = s.errIll := by
  unfold putChar; split <;> simp
@[simp] theorem putChar_tx (o : Orientation) (c n : Nat) (s : State) : (putChar o c n s).tx = s.tx := by
  unfold putChar; split <;> simp
@[simp] theorem putChar_inputs (o : Orientation) (c n : Nat) (s : State) : (putChar o c n s).inputs = s.inputs := by
  unfold putChar; split <;> simp

theorem putChar_fb_wf {s : State} (hs : Memory.wf 504 s.fb = true) (o : Orientation) (c n : Nat) :
    Memory.wf 504 (putChar o c n s).fb = true := by
  unfold putChar
  split
  · simpa using hs
  · simpa using plotAll_fb_wf hs _

/-! ## One command -/

/-- No command stops (60_exceptions.md R98). -/
theorem exec_next (i : Instr) (s : State) : ∃ t, exec i s = .next t := by
  cases i <;> exact ⟨_, rfl⟩

theorem exec_keeps_fb_wf {i : Instr} {s t : State} (h : exec i s = .next t) (hs : Memory.wf 504 s.fb = true) :
    Memory.wf 504 t.fb = true := by
  cases i with
  | clear => cases h; rfl
  | setPixel x y v => cases h; exact plot_fb_wf hs x y v
  | setCursor x y => cases h; exact hs
  | writeChar c n => cases h; exact putChar_fb_wf hs _ _ _
  | writeCharOpp c n => cases h; exact putChar_fb_wf hs _ _ _
  | registerGlyph c g => cases h; split <;> exact hs
  | drawLine x1 y1 x2 y2 => cases h; exact plotAll_fb_wf hs _
  | drawRect x1 y1 x2 y2 => cases h; exact plotAll_fb_wf hs _
  | drawCircle x0 y0 r => cases h; exact plotAll_fb_wf hs _
  | render => cases h; exact hs

theorem exec_keeps_gram_wf {i : Instr} {s t : State} (h : exec i s = .next t) (hs : Memory.wf 160 s.gram = true) :
    Memory.wf 160 t.gram = true := by
  cases i with
  | registerGlyph c g =>
    cases h
    split
    · rename_i hc
      exact writeGlyphBytes_wf hs hc g
    · exact hs
  | clear => cases h; simpa using hs
  | setPixel x y v => cases h; simpa using hs
  | setCursor x y => cases h; simpa using hs
  | writeChar c n => cases h; simpa using hs
  | writeCharOpp c n => cases h; simpa using hs
  | drawLine x1 y1 x2 y2 => cases h; simpa using hs
  | drawRect x1 y1 x2 y2 => cases h; simpa using hs
  | drawCircle x0 y0 r => cases h; simpa using hs
  | render => cases h; simpa using hs

/-! ## One step -/

/-- Everything a step can do: wait without an act of the host, reset, wait while BUSY, run a legal word, flag an illegal one. -/
theorem step_cases {s t : State} (h : step s = .next t) :
    (s.inputs = [] ∧ t = s) ∨
    (∃ rest, s.inputs = .reset :: rest ∧ t = resetBlock rest) ∨
    (∃ w rest, s.inputs = .word w :: rest ∧ s.busy = true ∧ t = s) ∨
    (∃ w rest i u, s.inputs = .word w :: rest ∧ s.busy = false ∧ decode w = .ok i ∧
      exec i (accept rest s) = .next u ∧ t = complete u) ∨
    (∃ w rest e, s.inputs = .word w :: rest ∧ s.busy = false ∧ decode w = .error e ∧
      t = complete (raise .illegalWord (accept rest s))) := by
  unfold step nextEvent at h
  split at h
  · rename_i hi
    exact .inl ⟨hi, by simpa using h.symm⟩
  · rename_i rest hi
    exact .inr (.inl ⟨rest, hi, by simpa using h.symm⟩)
  · rename_i w rest hi
    cases hb : s.busy
    · simp only [cmdReady, hb, Bool.not_false, if_true, executeWord] at h
      cases hd : decode w with
      | ok i =>
        obtain ⟨u, hu⟩ := exec_next i (accept rest s)
        simp only [hd, hu, completed, Host.Outcome.next.injEq] at h
        exact .inr (.inr (.inr (.inl ⟨w, rest, i, u, hi, rfl, hd, hu, h.symm⟩)))
      | error e =>
        simp only [hd, completed, Host.Outcome.next.injEq] at h
        exact .inr (.inr (.inr (.inr ⟨w, rest, e, hi, rfl, hd, h.symm⟩)))
    · simp only [cmdReady, hb, Bool.not_true, Bool.false_eq_true, if_false, Host.Outcome.next.injEq] at h
      exact .inr (.inr (.inl ⟨w, rest, hi, rfl, h.symm⟩))

end Sys2Proof.Machine
end

