-- ==== Sys2Proof/Laws/Ports.lean ====
section
/-! SUPPORT. One cycle of the port-level machine, case by case. -/

namespace Sys2Proof.Machine

theorem portCycle_of_rst {i : PortIn} {p : PortState} (h : i.rst = true) : portCycle i p = portReset p := by
  simp [portCycle, h]

theorem portCycle_of_busy {i : PortIn} {p : PortState} (hr : i.rst = false) (hb : p.core.busy = true) :
    portCycle i p = portContinue i p := by
  simp [portCycle, hr, hb]

theorem portCycle_of_accept {i : PortIn} {p : PortState} (hr : i.rst = false) (hb : p.core.busy = false)
    (hv : i.cmdValid = true) : portCycle i p = portAccept i.cmdData p := by
  simp [portCycle, portCmdReady, cmdReady, hr, hb, hv]

theorem portCycle_of_idle {i : PortIn} {p : PortState} (hr : i.rst = false) (hb : p.core.busy = false)
    (hv : i.cmdValid = false) : portCycle i p = { p with cycle := p.cycle + 1 } := by
  simp [portCycle, hr, hb, hv]

/-- A hand-over or a cycle of waiting brings nothing new: the state the command ends in stays what it was. -/
theorem settled_portContinue (i : PortIn) (p : PortState) : settled (portContinue i p) = settled p := by
  unfold portContinue
  split
  · rename_i item rest hs
    split
    · simp [settled, emitAll, complete, hs]
    · simp [settled]
  · rename_i hs
    split <;> simp [settled, emitAll, complete, hs]

end Sys2Proof.Machine
end

