-- ==== Sys2Proof/Laws/Raster.lean ====
section
/-! SUPPORT. What the rasterizer's shared operations compute: rounding, the DDA sequence, the circle iteration. -/

namespace Sys2Proof.Machine

/-! ## Rounding (00_scope.md R9) -/

@[simp] theorem roundHalfAway_zero (d : Int) : roundHalfAway 0 d = 0 := by simp [roundHalfAway]

theorem roundHalfAway_of_nonneg {n d : Int} (hn : 0 ≤ n) (hd : 0 < d) : roundHalfAway n d = (2 * n + d) / (2 * d) := by
  rcases eq_or_lt_of_le hn with rfl | hpos
  · have h : d / (2 * d) = 0 := Int.ediv_eq_zero_of_lt (by omega) (by omega)
    simp [h]
  · simp [roundHalfAway, Int.sign_eq_one_of_pos hpos, abs_of_pos hpos]

@[simp] theorem roundHalfAway_neg (n d : Int) : roundHalfAway (-n) d = -roundHalfAway n d := by
  simp [roundHalfAway, Int.sign_neg]

/-- An exact quotient is not moved. -/
theorem roundHalfAway_mul {d : Int} (hd : 0 < d) (m : Int) : roundHalfAway (m * d) d = m := by
  have pos : ∀ k : Int, 0 ≤ k → roundHalfAway (k * d) d = k := fun k hk => by
    have h2 : 2 * (k * d) + d = d + 2 * d * k := by ring
    rw [roundHalfAway_of_nonneg (by positivity) hd, h2, Int.add_mul_ediv_left _ _ (by omega),
      Int.ediv_eq_zero_of_lt (by omega) (by omega), zero_add]
  rcases le_total 0 m with hm | hm
  · exact pos m hm
  · have h := pos (-m) (by omega)
    rw [neg_mul, roundHalfAway_neg] at h
    omega

/-! ## The DDA sequence (41_rasterizer.md R70) -/

theorem linePoints_of_steps_eq_zero {x1 y1 x2 y2 : Int} (h : lineSteps x1 y1 x2 y2 = 0) :
    linePoints x1 y1 x2 y2 = [(x1, y1)] := by simp [linePoints, h]

/-- With at least one step, `P_i` is the list's entry `i`, for `i` from 0 to `steps`. -/
theorem mem_linePoints {x1 y1 x2 y2 : Int} (h : lineSteps x1 y1 x2 y2 ≠ 0) {p : Int × Int} :
    p ∈ linePoints x1 y1 x2 y2 ↔ ∃ i ≤ lineSteps x1 y1 x2 y2,
      p = (lineCoord x1 x2 (lineSteps x1 y1 x2 y2) i, lineCoord y1 y2 (lineSteps x1 y1 x2 y2) i) := by
  simp only [linePoints, h, if_false, List.mem_map, List.mem_range, Nat.lt_succ_iff]
  constructor
  · rintro ⟨i, hi, rfl⟩
    exact ⟨i, hi, rfl⟩
  · rintro ⟨i, hi, rfl⟩
    exact ⟨i, hi, rfl⟩

@[simp] theorem length_linePoints (x1 y1 x2 y2 : Int) :
    (linePoints x1 y1 x2 y2).length = lineSteps x1 y1 x2 y2 + 1 := by
  unfold linePoints
  split
  · simp_all
  · simp

/-- A coordinate that does not move along the line. -/
theorem lineCoord_const (c : Int) {steps : Nat} (h : steps ≠ 0) (i : Nat) : lineCoord c c steps i = c := by
  simp only [lineCoord, sub_self, mul_zero, add_zero]
  exact roundHalfAway_mul (by omega) c

/-- A coordinate that rises by one at every step. -/
theorem lineCoord_up {c1 c2 : Int} {steps : Nat} (h : steps ≠ 0) (hd : c2 - c1 = steps) (i : Nat) :
    lineCoord c1 c2 steps i = c1 + i := by
  rw [lineCoord, hd, ← add_mul]
  exact roundHalfAway_mul (by omega) _

/-- A coordinate that falls by one at every step. -/
theorem lineCoord_down {c1 c2 : Int} {steps : Nat} (h : steps ≠ 0) (hd : c1 - c2 = steps) (i : Nat) :
    lineCoord c1 c2 steps i = c1 - i := by
  have h2 : c1 * steps + i * (c2 - c1) = (c1 - i) * (steps : Int) := by
    rw [← hd]
    ring
  rw [lineCoord, h2]
  exact roundHalfAway_mul (by omega) _

/-- A horizontal line is the full run of pixels between its ends. -/
theorem mem_linePoints_horizontal {x1 x2 y a b : Int} :
    (a, b) ∈ linePoints x1 y x2 y ↔ b = y ∧ min x1 x2 ≤ a ∧ a ≤ max x1 x2 := by
  by_cases h : lineSteps x1 y x2 y = 0
  · rw [linePoints_of_steps_eq_zero h]
    simp only [lineSteps] at h
    simp only [List.mem_singleton, Prod.mk.injEq]
    omega
  · have hs : lineSteps x1 y x2 y = (x2 - x1).natAbs := by simp [lineSteps]
    rw [mem_linePoints h]
    rw [hs] at h ⊢
    simp only [Prod.mk.injEq, lineCoord_const y h]
    rcases le_total x1 x2 with hle | hle
    · have hup := fun i => lineCoord_up (c1 := x1) (c2 := x2) (steps := (x2 - x1).natAbs) h (by omega) i
      simp only [hup]
      constructor
      · rintro ⟨i, hi, rfl, rfl⟩
        omega
      · rintro ⟨rfl, h1, h2⟩
        exact ⟨(a - x1).toNat, by omega, by omega, rfl⟩
    · have hdn := fun i => lineCoord_down (c1 := x1) (c2 := x2) (steps := (x2 - x1).natAbs) h (by omega) i
      simp only [hdn]
      constructor
      · rintro ⟨i, hi, rfl, rfl⟩
        omega
      · rintro ⟨rfl, h1, h2⟩
        exact ⟨(x1 - a).toNat, by omega, by omega, rfl⟩

/-- Exchanging the axes exchanges the coordinates of every point. -/
theorem mem_linePoints_swap {x1 y1 x2 y2 a b : Int} :
    (a, b) ∈ linePoints x1 y1 x2 y2 ↔ (b, a) ∈ linePoints y1 x1 y2 x2 := by
  have hs : lineSteps x1 y1 x2 y2 = lineSteps y1 x1 y2 x2 := by simp only [lineSteps, max_comm]
  by_cases h : lineSteps y1 x1 y2 x2 = 0
  · rw [linePoints_of_steps_eq_zero h, linePoints_of_steps_eq_zero (hs.trans h)]
    simp [and_comm]
  · rw [mem_linePoints h, mem_linePoints (hs ▸ h), hs]
    simp [and_comm]

/-- A vertical line is the full run of pixels between its ends. -/
theorem mem_linePoints_vertical {x y1 y2 a b : Int} :
    (a, b) ∈ linePoints x y1 x y2 ↔ a = x ∧ min y1 y2 ≤ b ∧ b ≤ max y1 y2 := by
  rw [mem_linePoints_swap, mem_linePoints_horizontal]

/-! ## The circle iteration (41_rasterizer.md R74) -/

/-- What one iteration does to `x`, `y` and `err`: the three ways the two `if`s can go. -/
theorem circleNext_cases (x y err : Int) :
    (err ≤ 0 ∧ err + 2 * (y + 1) + 1 ≤ 0 ∧ circleNext (x, y, err) = (x, y + 1, err + 2 * (y + 1) + 1)) ∨
    (err ≤ 0 ∧ 0 < err + 2 * (y + 1) + 1 ∧
      circleNext (x, y, err) = (x - 1, y + 1, err + 2 * (y + 1) + 1 - (2 * (x - 1) + 1))) ∨
    (0 < err ∧ circleNext (x, y, err) = (x - 1, y, err - (2 * (x - 1) + 1))) := by
  by_cases h : err ≤ 0
  · by_cases h2 : 0 < err + 2 * (y + 1) + 1
    · exact .inr (.inl ⟨h, h2, by simp [circleNext, h, h2]⟩)
    · exact .inl ⟨h, by omega, by simp [circleNext, h, h2]⟩
  · exact .inr (.inr ⟨by omega, by simp only [circleNext, h, if_false]; rw [if_pos (by omega)]⟩)

/-- Every iteration brings `x` and `y` closer. -/
theorem circleNext_closer (v : Int × Int × Int) : (circleNext v).1 - (circleNext v).2.1 ≤ v.1 - v.2.1 - 1 := by
  obtain ⟨x, y, err⟩ := v
  rcases circleNext_cases x y err with ⟨-, -, h⟩ | ⟨-, -, h⟩ | ⟨-, h⟩ <;> rw [h] <;> dsimp only <;> omega

@[simp] theorem circleTraceFrom_zero (v : Int × Int × Int) : circleTraceFrom 0 v = [] := rfl

/-- Fuel for `x - y + 1` iterations is enough: more makes no difference. -/
theorem circleTraceFrom_fuel {n m : Nat} {v : Int × Int × Int} (hn : v.1 - v.2.1 + 1 ≤ n) (hm : v.1 - v.2.1 + 1 ≤ m) :
    circleTraceFrom n v = circleTraceFrom m v := by
  induction n generalizing m v with
  | zero =>
    cases m with
    | zero => rfl
    | succ m => simp only [circleTraceFrom]; rw [if_neg (by push_cast at hn; omega)]
  | succ n ih =>
    cases m with
    | zero => simp only [circleTraceFrom]; rw [if_neg (by push_cast at hm; omega)]
    | succ m =>
      simp only [circleTraceFrom]
      split
      · have h := circleNext_closer v
        rw [ih (m := m) (by push_cast at hn; omega) (by push_cast at hm; omega)]
      · rfl

/-- The trace is the loop "while x >= y": with enough fuel it unrolls by one iteration exactly when the test holds. -/
theorem circleTraceFrom_unroll {n : Nat} {v : Int × Int × Int} (hn : v.1 - v.2.1 + 1 ≤ n) :
    circleTraceFrom n v = if v.2.1 ≤ v.1 then v :: circleTraceFrom n (circleNext v) else [] := by
  rw [circleTraceFrom_fuel hn (m := n + 1) (by push_cast; omega)]
  rfl

theorem mem_circlePoints {x0 y0 r a b : Int} :
    (a, b) ∈ circlePoints x0 y0 r ↔ ∃ v ∈ circleTrace r, (a, b) ∈ octantPoints x0 y0 v.1 v.2.1 := by
  simp only [circlePoints, List.mem_flatMap]

theorem mem_octantPoints {x0 y0 x y a b : Int} :
    (a, b) ∈ octantPoints x0 y0 x y ↔
      ((a = x0 + x ∨ a = x0 - x) ∧ (b = y0 + y ∨ b = y0 - y)) ∨
      ((a = x0 + y ∨ a = x0 - y) ∧ (b = y0 + x ∨ b = y0 - x)) := by
  simp only [octantPoints, List.mem_cons, Prod.mk.injEq, List.not_mem_nil, or_false]
  tauto

end Sys2Proof.Machine
end

