-- ==== Sys2Proof/Tests/Slice0.lean ====
section
/-! SUPPORT. The model's own tests: decoding words written out from the spec, ill-formed commands, one step each on small states with results from 95_test_vectors.md, and a witness for the hypotheses of every statement. -/

namespace Sys2Proof.Tests

open Sys2Proof.Machine

/-! ## Ill-formed commands are refused (30_encoding.md R49, R60) -/

theorem test_wf_setPixel_x : (Instr.setPixel 2048 0 true).wellFormed = false := by decide
theorem test_wf_setPixel_y : (Instr.setPixel 0 (-2049) true).wellFormed = false := by decide
theorem test_wf_setCursor_x : (Instr.setCursor (-2049) 0).wellFormed = false := by decide
theorem test_wf_setCursor_y : (Instr.setCursor 0 2048).wellFormed = false := by decide
theorem test_wf_writeChar_code : (Instr.writeChar 256 1).wellFormed = false := by decide
theorem test_wf_writeChar_scale : (Instr.writeChar 1 256).wellFormed = false := by decide
theorem test_wf_writeCharOpp_code : (Instr.writeCharOpp 256 1).wellFormed = false := by decide
theorem test_wf_writeCharOpp_scale : (Instr.writeCharOpp 1 256).wellFormed = false := by decide
theorem test_wf_registerGlyph_code : (Instr.registerGlyph 256 default).wellFormed = false := by decide
theorem test_wf_drawLine : [Instr.drawLine 2048 0 0 0, .drawLine 0 2048 0 0, .drawLine 0 0 2048 0, .drawLine 0 0 0 2048].all
    (fun i => !i.wellFormed) = true := by decide
theorem test_wf_drawRect : [Instr.drawRect (-2049) 0 0 0, .drawRect 0 (-2049) 0 0, .drawRect 0 0 (-2049) 0,
    .drawRect 0 0 0 (-2049)].all (fun i => !i.wellFormed) = true := by decide
theorem test_wf_drawCircle : [Instr.drawCircle 2048 0 0, .drawCircle 0 2048 0, .drawCircle 0 0 2048].all
    (fun i => !i.wellFormed) = true := by decide
theorem test_wf_bounds : (Instr.drawLine (-2048) 2047 2047 (-2048)).wellFormed = true := by decide

/-! ## Words written out bit by bit from the formats of 30_encoding.md R51 to R57 -/

/-- R51: opcode 0x01, 56 zeros. -/
theorem test_decode_clear : decode (0b00000001#8 ++ 0#56) = .ok .clear := by decide
/-- R53: opcode 0x02, 7 zeros, v = 1, x = -1, y = 5, 24 zeros. -/
theorem test_decode_setPixel : decode (0b00000010#8 ++ 0#7 ++ 1#1 ++ 0b111111111111#12 ++ 0b000000000101#12 ++ 0#24) =
    .ok (.setPixel (-1) 5 true) := by decide
/-- R52: opcode 0x03, 8 zeros, x = -3, y = 5, 24 zeros. -/
theorem test_decode_setCursor : decode (0b00000011#8 ++ 0#8 ++ 0b111111111101#12 ++ 0b000000000101#12 ++ 0#24) =
    .ok (.setCursor (-3) 5) := by decide
/-- R56: opcode 0x10, scale = 2, code = 0x41, 40 zeros. -/
theorem test_decode_writeChar : decode (0b00010000#8 ++ 0b00000010#8 ++ 0b01000001#8 ++ 0#40) = .ok (.writeChar 0x41 2) := by
  decide
/-- R56: opcode 0x11, scale = 255, code = 1, 40 zeros. -/
theorem test_decode_writeCharOpp : decode (0b00010001#8 ++ 0b11111111#8 ++ 0b00000001#8 ++ 0#40) =
    .ok (.writeCharOpp 1 255) := by decide
/-- R57: opcode 0x12, 8 zeros, code = 1, the five bytes. -/
theorem test_decode_registerGlyph : decode (0b00010010#8 ++ 0#8 ++ 0b00000001#8 ++ 0b01111111#8 ++ 0b00001001#8 ++
    0b00011001#8 ++ 0b00101001#8 ++ 0b01000110#8) = .ok (.registerGlyph 1 ⟨0x7F, 0x09, 0x19, 0x29, 0x46⟩) := by decide
/-- R54: opcode 0x20, 8 zeros, x1 = -2, y1 = -1, x2 = 2, y2 = 1. -/
theorem test_decode_drawLine : decode (0b00100000#8 ++ 0#8 ++ 0b111111111110#12 ++ 0b111111111111#12 ++ 0b000000000010#12 ++
    0b000000000001#12) = .ok (.drawLine (-2) (-1) 2 1) := by decide
/-- R54: opcode 0x21, 8 zeros, x1 = 0, y1 = 1, x2 = 9, y2 = 7. -/
theorem test_decode_drawRect : decode (0b00100001#8 ++ 0#8 ++ 0b000000000000#12 ++ 0b000000000001#12 ++ 0b000000001001#12 ++
    0b000000000111#12) = .ok (.drawRect 0 1 9 7) := by decide
/-- R55: opcode 0x22, 8 zeros, x0 = 10, y0 = 11, r = -1, 12 zeros. -/
theorem test_decode_drawCircle : decode (0b00100010#8 ++ 0#8 ++ 0b000000001010#12 ++ 0b000000001011#12 ++ 0b111111111111#12 ++
    0#12) = .ok (.drawCircle 10 11 (-1)) := by decide
/-- R51: opcode 0x30, 56 zeros. -/
theorem test_decode_render : decode (0b00110000#8 ++ 0#56) = .ok .render := by decide
/-- 95_test_vectors.md 2.1, illegal words. -/
theorem test_decode_illegal : decode 0x0203001001000000 = .error (.reservedBitSet 0x02) ∧
    decode 0 = .error (.unknownOpcode 0) := by decide
theorem test_decodeTableWord : decodeTableWord 64 0x0201001001000000 = some (.setPixel 1 1 true) := by decide

/-! ## One step each, with the results of 95_test_vectors.md -/

/-- The state an outcome holds. -/
def after (o : Host.Outcome State Fault Refusal) (s : State) : State :=
  match o with
  | .next t => t
  | .fault _ => s
  | .refused _ => s

/-- One step of a state that is presented one command. -/
def ran (i : Instr) (s : State) : State := after (step (s.withFetchWord 64 (encode i).toNat)) s

/-- T, the test glyph of 95_test_vectors.md. -/
def glyphT : Glyph := ⟨0x7F, 0x09, 0x19, 0x29, 0x46⟩

/-- The reset state with T in slot 1 and the cursor at `(x, y)`. -/
def withT (x y : Int) : State := moveCursor x y (storeGlyph 1 glyphT State.reset)

/-- V-F9. -/
theorem test_clear : ran .clear { withT 6 0 with fb := [(0, 0x7F)], errOob := true } = { withT 0 0 with errOob := true } := by
  decide
/-- V-F8. -/
theorem test_setPixel_clears : (ran (.setPixel 3 10 false) { State.reset with fb := [(87, 0xFF)] }).fb = [(87, 0xFB)] := by
  decide
/-- V-F5. -/
theorem test_setPixel_out : ran (.setPixel 84 0 true) State.reset = { State.reset with errOob := true } := by decide
/-- V-F11. -/
theorem test_setCursor : cursor (ran (.setCursor 2047 (-2048)) State.reset) = (2047, -2048) := by decide
/-- V-L13. -/
theorem test_drawLine : (ran (.drawLine (-2) (-1) 2 1) State.reset).fb = [(0, 0x01), (1, 0x02), (2, 0x02)] ∧
    (ran (.drawLine (-2) (-1) 2 1) State.reset).errOob = true := by decide
/-- V-L7. -/
theorem test_drawLine_ties : linePoints 4 2 0 0 = [(4, 2), (3, 2), (2, 1), (1, 1), (0, 0)] := by decide
/-- V-R7. -/
theorem test_drawRect : (ran (.drawRect 82 46 85 49) State.reset).fb = [(502, 0xC0), (503, 0x40)] ∧
    (ran (.drawRect 82 46 85 49) State.reset).errOob = true := by decide
/-- V-C7. -/
theorem test_drawCircle : (ran (.drawCircle 2 2 4) State.reset).fb =
    [(0, 0x11), (1, 0x20), (2, 0x40), (3, 0x20), (4, 0x11), (5, 0x0A), (6, 0x04)] := by decide
/-- V-C11. -/
theorem test_circleTrace : circleTrace 10 =
    [(10, 0, 0), (9, 1, -16), (9, 2, -11), (9, 3, -4), (8, 4, -12), (8, 5, -1), (7, 6, -3)] := by decide
/-- V-T19. -/
theorem test_writeChar : (ran (.writeChar 1 1) (withT (-3) 5)).fb = [(0, 0x20), (1, 0xC0), (84, 0x05), (85, 0x08)] ∧
    cursor (ran (.writeChar 1 1) (withT (-3) 5)) = (3, 5) := by decide
/-- V-T6: a wrap to a row where no glyph fits. -/
theorem test_writeChar_wrap : cursor (ran (.writeChar 1 1) (withT 78 39)) = (0, 47) := by decide
/-- V-T2. -/
theorem test_writeCharOpp : (ran (.writeCharOpp 1 1) (withT 0 0)).fb =
    [(0, 0x1E), (1, 0x11), (2, 0x11), (3, 0x1E), (4, 0x14), (5, 0x12), (6, 0x11)] := by decide
/-- V-T8. -/
theorem test_writeCharOpp_rejected : ran (.writeCharOpp 0xFF 3) (withT 0 0) = withT 0 0 := by decide
/-- V-G5. -/
theorem test_registerGlyph : gramGlyph 31 (ran (.registerGlyph 0x1F ⟨0xFF, 0xFF, 0xFF, 0xFF, 0xFF⟩) State.reset) =
    ⟨0xFF, 0xFF, 0xFF, 0xFF, 0xFF⟩ := by decide
/-- V-G2. -/
theorem test_registerGlyph_rejected : ran (.registerGlyph 0x41 ⟨1, 2, 3, 4, 5⟩) State.reset = State.reset := by decide
/-- V-S2: the last item of the stream. -/
theorem test_render : (renderItems [(503, 0x80)])[2 + 503]? = some ⟨true, 0x80⟩ := by
  simp [renderItems, Memory.read]
/-- V-S1: 506 items. -/
theorem test_render_length : (renderItems []).length = 506 := by
  simp only [renderItems, List.length_cons, List.length_map, List.length_range]

/-! ## Witnesses: concrete states and operands that meet the hypotheses of the statements together -/

/-- An idle block to which one word is presented. -/
def presented (w : CmdWord) : State := { State.reset with inputs := [.word w] }

theorem witness_EncodeThenDecodeGivesTheCommand : (Instr.setPixel 2047 (-2048) false).wellFormed = true := by decide
theorem witness_DecodeThenEncodeGivesTheWord : decode 0x2100000000009007 = .ok (.drawRect 0 0 9 7) := by decide
theorem witness_OpcodeRowsAreDisjoint : ∃ r ∈ opcodeTable, r.hits 0x3000000000000000 = true := by
  refine ⟨opcodeTable[9], ?_, by decide⟩
  simp [opcodeTable]
theorem witness_StepRunsTheDecodedCommand : (presented 0x0100000000000000).inputs = [.word 0x0100000000000000] ∧
    (presented 0x0100000000000000).busy = false ∧ decode 0x0100000000000000 = .ok .clear ∧
    ∃ t, exec .clear { presented 0x0100000000000000 with inputs := [], busy := true } = .next t :=
  ⟨rfl, rfl, by decide, _, rfl⟩
theorem witness_IllegalWordOnlySetsErrIll : (presented 0).inputs = [.word 0] ∧ (presented 0).busy = false ∧
    ∀ i, decode 0 ≠ .ok i := by
  refine ⟨rfl, rfl, fun i h => ?_⟩
  have : decode 0 = .error (.unknownOpcode 0) := by decide
  rw [this] at h
  cases h
theorem witness_StepWaits_noWord : State.reset.inputs = [] := rfl
theorem witness_StepWaits_busy : { presented 0 with busy := true }.inputs = [.word 0] ∧ { presented 0 with busy := true }.busy = true :=
  ⟨rfl, rfl⟩
theorem witness_ResetEventGivesTheResetState : { State.reset with busy := true, inputs := [.reset] }.inputs = [.reset] := rfl
theorem witness_ResetStateHoldsTheSpecValues : (withT 6 0).gvalid ≠ 0 ∧ { withT 6 0 with gvalid := 0 }.gvalid = 0 ∧
    { withT 6 0 with gvalid := 0 }.errOob = false ∧ { withT 6 0 with gvalid := 0 }.errIll = false ∧
    { withT 6 0 with gvalid := 0 }.busy = false ∧ { withT 6 0 with gvalid := 0 }.tx = [] := by decide

/-- A state that lists bytes, with a stream of no RENDER, meets the invariant. -/
theorem inv_of_listed {w : List HostEvent} : Inv { withT 6 0 with fb := [(0, 0x7F)], inputs := w } :=
  ⟨rfl, rfl, rfl, [], by simp, by simp [withT, storeGlyph, moveCursor, State.reset]⟩

theorem witness_EveryStepKeepsInv :
    Inv { withT 6 0 with fb := [(0, 0x7F)], inputs := [.word 0x1001010000000000] } ∧
    ∃ t, step { withT 6 0 with fb := [(0, 0x7F)], inputs := [.word 0x1001010000000000] } = .next t :=
  ⟨inv_of_listed, _, rfl⟩
theorem witness_EveryStepAnswersANextState : cmdReady (presented 0) = true := rfl
theorem witness_OnlyResetClearsFlagsAndSlots : (∃ t, step (presented 0) = .next t) ∧
    ∀ rest, (presented 0).inputs ≠ .reset :: rest := by
  refine ⟨⟨_, rfl⟩, fun rest h => ?_⟩
  simp [presented] at h
theorem witness_EachPieceOfStateHasItsWriters : ∃ t, exec .render State.reset = .next t := ⟨_, rfl⟩
theorem witness_ObservablyEqualStatesStayObservablyEqual :
    Inv (presented 0x1001010000000000) ∧ Inv { presented 0x1001010000000000 with gram := [(0, 1)] } ∧
    ObsEq (presented 0x1001010000000000) { presented 0x1001010000000000 with gram := [(0, 1)] } ∧
    (∃ s', Host.Core.run Sys2Proof.core 1 (presented 0x1001010000000000) = .next s') ∧
    ∃ t', Host.Core.run Sys2Proof.core 1 { presented 0x1001010000000000 with gram := [(0, 1)] } = .next t' := by
  have hinv : ∀ m, Memory.wf 160 m = true → Inv { presented 0x1001010000000000 with gram := m } := fun m hm =>
    ⟨rfl, hm, rfl, [], by simp, by simp [presented, State.reset]⟩
  refine ⟨hinv [] rfl, hinv [(0, 1)] (by decide), ⟨fun _ _ => rfl, rfl, rfl, rfl, fun c _ hv => ?_, rfl, rfl, rfl⟩,
    ⟨_, rfl⟩, _, rfl⟩
  simp [presented, State.reset] at hv
theorem witness_CursorStaysOnDisplay : CursorOnDisplay (presented 0x0300053000000000) ∧
    (∀ w x y, nextWord (presented 0x030005302F000000) = some w → decode w = .ok (.setCursor x y) →
      0 ≤ x ∧ x < 84 ∧ 0 ≤ y ∧ y < 48) ∧ ∃ t, step (presented 0x030005302F000000) = .next t := by
  refine ⟨by unfold CursorOnDisplay; decide, fun w x y hw hd => ?_, _, rfl⟩
  have h1 : nextWord (presented 0x030005302F000000) = some 0x030005302F000000 := rfl
  have h2 : decode 0x030005302F000000 = .ok (.setCursor 83 47) := by decide
  obtain rfl := Option.some.inj (h1.symm.trans hw)
  rw [h2] at hd
  cases hd
  decide
theorem witness_MemoryReadsWhatWasWritten : Memory.wf 504 [(3, 1), (503, 2)] = true ∧ 503 < 504 ∧
    Memory.wf 504 [(3, 1), (503, 2)] = true ∧
    ∀ a', Memory.read [(3, 1), (503, 2)] a' = Memory.read [(3, 1), (503, 2)] a' := by simp; decide
theorem witness_PixelMapIsABijection : inBounds 0 0 = true ∧ inBounds 83 47 = true ∧ fbIndex 83 47 = 503 ∧ fbBit 47 = 7 ∧
    fbIndex 0 0 = 0 ∧ fbBit 0 = 0 := by decide
theorem witness_PlotWritesOnePixelOrSetsErrOob : Memory.wf 504 (withT 0 0).fb = true ∧ inBounds 83 47 = true ∧
    inBounds 84 47 = false ∧ inBounds 83 48 = false ∧ inBounds (-1) 0 = false ∧ inBounds 0 (-1) = false := by decide
theorem witness_PlotsAreIdempotentAndCommute : Memory.wf 504 [(87, 0xFF)] = true ∧ ¬ ((3 : Int) = 3 ∧ (10 : Int) = 11) := by
  decide
theorem witness_CommandsKeepEveryOtherByte : (∃ t, exec (.setPixel 3 10 true) State.reset = .next t) ∧
    Instr.setPixel 3 10 true ≠ .clear ∧
    ∀ d ∈ commandDots (.setPixel 3 10 true) State.reset, inBounds d.x d.y = true → fbIndex d.x d.y ≠ 88 :=
  ⟨⟨_, rfl⟩, by decide, by decide⟩
theorem witness_ErrOobTells_clean : (after (exec (.drawLine 0 0 5 2) State.reset) State.reset).errOob = false := by decide
theorem witness_ErrOobTells_clipped : State.reset.errOob = false ∧
    (after (exec (.drawLine 80 0 86 3) State.reset) State.reset).errOob = true := by decide
theorem witness_SetPixelResult : Memory.wf 504 [(87, 0xFF)] = true ∧ inBounds 83 47 = true ∧ inBounds 84 0 = false := by decide
theorem witness_SetCursorStoresItsOperands : (Instr.setCursor 2047 (-2048)).wellFormed = true := by decide
theorem witness_RoundingIsToNearestTiesAway : (0 : Int) < 4 ∧ 2 * |(2 : Int) - roundHalfAway 2 4 * 4| = 4 := by decide
theorem witness_DrawLineResult : Memory.wf 504 State.reset.fb = true := rfl
theorem witness_LinesAreGapless : (linePoints 0 0 5 2)[1]? = some (1, 0) ∧ (linePoints 0 0 5 2)[2]? = some (2, 1) ∧
    (2 - 0 : Int).natAbs ≤ (5 - 0 : Int).natAbs := by decide
theorem witness_LinesAreGapless_steep : (linePoints 0 0 2 5)[5]? = some (2, 5) ∧
    (2 - 0 : Int).natAbs ≤ (5 - 0 : Int).natAbs := by decide
theorem witness_LinesDoNotDependOnTheirDirection : Memory.wf 504 [(0, 1)] = true := by decide
theorem witness_DrawRectSetsThePerimeter : Memory.wf 504 [(503, 0x80)] = true ∧ inBounds 0 0 = true ∧ inBounds 83 47 = true := by
  decide
theorem witness_DrawCircleResult : Memory.wf 504 [(503, 0x80)] = true ∧ inBounds 0 0 = true ∧ inBounds 83 47 = true := by decide
theorem witness_CircleLoop : (circleTrace 5)[1]? = some (4, 1, -6) ∧ (circleTrace 5)[3]? = some (3, 3, -1) ∧
    circleTrace (-1) = [] ∧ (circleTrace 0).head? = some (0, 0, 0) := by decide
theorem witness_CircleCornerCases : Memory.wf 504 State.reset.fb = true ∧ (-1 : Int) < 0 ∧ (0 : Int) ≤ 0 := by decide
theorem witness_CirclesAreEightWaySymmetric : ((15, 10) : Int × Int) ∈ circlePoints 10 10 5 := by decide
theorem witness_CircleWorkingValuesAreBounded : (0 : Int) ≤ 2047 ∧ (2047 : Int) ≤ 2047 ∧ (3, 3, -1) ∈ circleTrace 5 := by decide
theorem witness_WorkPerCommandIsBounded : (Instr.drawLine (-2048) (-2048) 2047 2047).wellFormed = true ∧
    (Instr.drawCircle 0 0 2047).wellFormed = true ∧ (Instr.writeChar 0x7F 255).wellFormed = true := by decide
theorem witness_GlyphLookup_rom : 0x20 ≤ 0x7F ∧ 0x7F < 0x80 := by decide
theorem witness_GlyphLookup_custom : 1 < 0x20 ∧ (withT 0 0).gvalid.getLsbD 1 = true := by decide
theorem witness_GlyphLookup_unset : 0x1F < 0x20 ∧ (withT 0 0).gvalid.getLsbD 0x1F = false := by decide
theorem witness_GlyphLookup_rejected : 0x80 ≤ 0x80 := by decide
theorem witness_CursorAdvance : 0x7F < 0x80 ∧ Instr.writeCharOpp 0x7F 1 ∈ [Instr.writeChar 0x7F 1, .writeCharOpp 0x7F 1] := by
  decide
theorem witness_WriteCharResult : glyphLookup 0x80 (withT 0 0) = none ∧ Memory.wf 504 (withT 83 47).fb = true ∧ glyphLookup 1 (withT 83 47) = some glyphT ∧
    cursor (withT 83 47) = (83, 47) := by decide
theorem witness_WriteCharOppResult : glyphLookup 0x80 (withT 0 0) = none ∧ Memory.wf 504 (withT (-3) 5).fb = true ∧ glyphLookup 1 (withT (-3) 5) = some glyphT ∧
    cursor (withT (-3) 5) = (-3, 5) := by decide
theorem witness_RejectedCodesChangeNothing : 0x80 ≤ 0x80 ∧ 0x80 < 256 ∧ 255 < 256 := by decide
theorem witness_ScaleZeroOnlyMovesTheCursor : 0 < 0x80 ∧ Instr.writeChar 0 0 ∈ [Instr.writeChar 0 0, .writeCharOpp 0 0] := by
  decide
theorem witness_LargestScaleFillsTheDisplay : Memory.wf 504 (withT 0 0).fb = true ∧ glyphLookup 1 (withT 0 0) = some glyphT ∧
    cursor (withT 0 0) = (0, 0) := by decide
theorem witness_RegisterGlyphResult : Memory.wf 160 (withT 0 0).gram = true ∧ 0x1F < 0x20 ∧ 0x20 ≤ 0x20 := by decide
theorem witness_RegisteredGlyphIsDrawnFromThenOn : Memory.wf 160 (withT 0 0).gram = true ∧
    (∃ t, exec (.registerGlyph 2 glyphT) (withT 0 0) = .next t ∧ ∃ u, exec (.registerGlyph 3 glyphT) t = .next u) ∧
    (∀ g', Instr.registerGlyph 3 glyphT ≠ .registerGlyph 2 g') ∧ ∃ t, exec (.registerGlyph 0x41 glyphT) (withT 0 0) = .next t :=
  ⟨by decide, ⟨_, rfl, _, rfl⟩, fun g' h => by simp at h, _, rfl⟩
theorem witness_GlyphBitSevenIsNeverDrawn : Memory.wf 160 (withT 0 0).gram = true ∧ 2 < 0x20 ∧
    (∀ col < 5, ∀ k < 7, (glyphColumn ⟨0xFF, 0x80, 0xFF, 0x80, 0xFF⟩ col).getLsbD k =
      (glyphColumn ⟨0x7F, 0x00, 0x7F, 0x00, 0x7F⟩ col).getLsbD k) ∧
    (∃ t, exec (.registerGlyph 2 ⟨0xFF, 0x80, 0xFF, 0x80, 0xFF⟩) (withT 0 0) = .next t) ∧
    ∃ t', exec (.registerGlyph 2 ⟨0x7F, 0x00, 0x7F, 0x00, 0x7F⟩) (withT 0 0) = .next t' :=
  ⟨by decide, by decide, by decide, ⟨_, rfl⟩, _, rfl⟩
theorem witness_WriteStringIsItsExpansion : 1 < 256 ∧
    { State.reset with inputs := [.word 0x1001010000000000, .word 0x1001020000000000, .reset] }.busy = false ∧
    { State.reset with inputs := [.word 0x1001010000000000, .word 0x1001020000000000, .reset] }.inputs =
      ((expandString [1, 2, 0, 3] 1 false).map fun i => HostEvent.word (encode i)) ++ [.reset] := by decide
theorem witness_ScaleOneText : cursor State.reset = (0, 0) ∧ (∀ c ∈ List.replicate 84 1, c < 0x80) ∧
    (List.replicate 84 1).length ≤ 84 := by decide
theorem witness_DisplayShowsTheArrayAfterRender : Memory.wf 504 [(503, 0x80)] = true ∧
    Memory.wf 504 (Display.mk 3 50 [(7, 0xFF)]).glass = true ∧
    (∃ t, exec .render { State.reset with fb := [(503, 0x80)] } = .next t) ∧ 83 < 84 ∧ 47 < 48 :=
  ⟨by decide, by decide, ⟨_, rfl⟩, by decide, by decide⟩
/-- A state whose pixel (83, 47) is set, shown at the debug port; (84, 47) is off the display. -/
theorem witness_StatusAndDebugPorts_values :
    dbgPixel { PortState.reset with core := { State.reset with fb := [(503, 0x80)] } } 83 47 = true ∧
    dbgPixel { PortState.reset with core := { State.reset with fb := [(503, 0x80)] } } 84 47 = false := by decide
theorem witness_StatusAndDebugPorts : PortState.reset.core.busy = false := rfl
theorem witness_BusyPort_busy : { PortState.reset with core := accept [] State.reset }.core.busy = true := rfl
theorem witness_BusyPort_reset : (PortIn.mk true true 0 true).rst = true := rfl
theorem witness_PortsRefineStep : PortState.reset.core.busy = false ∧ PortState.reset.sending = [] ∧
    (PortIn.mk false true 0x3000000000000000 false).rst = false ∧ (PortIn.mk false true 0x3000000000000000 false).cmdValid = true ∧
    (∀ j ∈ [PortIn.mk false false 0 true, PortIn.mk false false 0 false], j.rst = false ∧ j.cmdValid = false) ∧
    ∃ t, step { PortState.reset.core with inputs := [.word 0x3000000000000000] } = .next t :=
  ⟨rfl, rfl, rfl, rfl, by decide, _, rfl⟩
theorem witness_CommandsComplete :
    (∀ j ∈ List.replicate 506 (PortIn.mk false false 0 true) ++
      List.replicate (Config.busyCycles 0 + 1) (PortIn.mk false false 0 false), j.rst = false ∧ j.cmdValid = false) ∧
    506 ≤ (List.replicate 506 (PortIn.mk false false 0 true)).countP (fun j => j.txReady) ∧
    Config.busyCycles PortState.reset.cycle < (List.replicate (Config.busyCycles 0 + 1) (PortIn.mk false false 0 false)).length := by
  refine ⟨fun j hj => ?_, ?_, ?_⟩
  · rcases List.mem_append.1 hj with h | h <;> rw [List.eq_of_mem_replicate h] <;> exact ⟨rfl, rfl⟩
  · rw [List.countP_replicate]
    exact Nat.le_refl 506
  · simp [PortState.reset]
theorem witness_StalledConsumer :
    (portAccept 0x3000000000000000 PortState.reset).core.busy = true ∧
    (portAccept 0x3000000000000000 PortState.reset).sending ≠ [] ∧
    ∀ j ∈ [PortIn.mk false true 0 false, PortIn.mk false false 0 false], j.rst = false ∧ j.txReady = false := by
  refine ⟨rfl, ?_, by decide⟩
  have : (portAccept 0x3000000000000000 PortState.reset).sending.head? = some ⟨false, Config.cmdSetCol0⟩ := rfl
  intro h
  rw [h] at this
  cases this

end Sys2Proof.Tests
end

