-- ==== Sys2Proof/Proofs/Rounding.lean ====
section
/-! PROOFS. RHA (00_scope.md R9) rounds to nearest, ties away from zero. -/

namespace Sys2Proof.Machine

/-- For `n ≥ 0` the error `n - RHA(n, d) * d` lies in the half-open interval `[-d/2, d/2)`: only the lower end, where
the result lies above `n`, is a tie. -/
theorem roundHalfAway_error_of_nonneg {n d : Int} (hn : 0 ≤ n) (hd : 0 < d) :
    -d ≤ 2 * (n - roundHalfAway n d * d) ∧ 2 * (n - roundHalfAway n d * d) < d := by
  have hdiv : roundHalfAway n d * (2 * d) + (2 * n + d) % (2 * d) = 2 * n + d := by
    rw [roundHalfAway_of_nonneg hn hd]
    exact Int.ediv_mul_add_emod _ _
  have hlow : 0 ≤ (2 * n + d) % (2 * d) := Int.emod_nonneg _ (by omega)
  have hhigh : (2 * n + d) % (2 * d) < 2 * d := Int.emod_lt_of_pos _ (by omega)
  constructor <;> linarith

/-- `RHA(n, d)` is a nearest integer to `n/d`, and the one farther from 0 in a tie, for `n ≥ 0`. -/
theorem roundHalfAway_nearest_of_nonneg {n d : Int} (hn : 0 ≤ n) (hd : 0 < d) :
    2 * |n - roundHalfAway n d * d| ≤ d ∧
    (2 * |n - roundHalfAway n d * d| = d → |n| < |roundHalfAway n d * d|) := by
  obtain ⟨hlow, hhigh⟩ := roundHalfAway_error_of_nonneg hn hd
  generalize roundHalfAway n d * d = m at hlow hhigh ⊢
  constructor
  · rw [← abs_two, ← abs_mul]
    exact abs_le.2 ⟨hlow, hhigh.le⟩
  · intro htie
    have habove : n < m := by
      by_contra hle
      rw [abs_of_nonneg (by omega)] at htie
      omega
    rwa [abs_of_nonneg hn, abs_of_nonneg (hn.trans habove.le)]

/-- Settles O28: the case `n ≥ 0` gives the case `n ≤ 0`, since RHA is odd and both clauses are about absolute values. -/
theorem roundingIsToNearestTiesAway : Obligations.RoundingIsToNearestTiesAway := by
  intro n d hd
  refine and_assoc.1 ⟨?_, roundHalfAway_neg n d⟩
  rcases le_total 0 n with hn | hn
  · exact roundHalfAway_nearest_of_nonneg hn hd
  · have h := roundHalfAway_nearest_of_nonneg (Int.neg_nonneg_of_nonpos hn) hd
    have herr : -n - -roundHalfAway n d * d = -(n - roundHalfAway n d * d) := by ring
    rwa [roundHalfAway_neg, herr, abs_neg, abs_neg, neg_mul, abs_neg] at h

end Sys2Proof.Machine
end

