-- ==== Sys2Proof/Proofs/Commands.lean ====
section
/-! SUPPORT. What a command does to each piece of state: its plots first, then the one other thing its rule says. -/

namespace Sys2Proof.Machine

/-! ## Clipping (20_memory.md R36) -/

/-- Whether one of the plots lies off the display. -/
def clipped (dots : List Dot) : Bool := dots.any fun d => !inBounds d.x d.y

@[simp] theorem clipped_nil : clipped [] = false := rfl
@[simp] theorem clipped_cons (d : Dot) (dots : List Dot) :
    clipped (d :: dots) = (!inBounds d.x d.y || clipped dots) := rfl

theorem clipped_eq_false_iff {dots : List Dot} : clipped dots = false ↔ ∀ d ∈ dots, inBounds d.x d.y = true := by
  simp [clipped]

theorem clipped_eq_true_iff {dots : List Dot} : clipped dots = true ↔ ∃ d ∈ dots, inBounds d.x d.y = false := by
  simp [clipped]

theorem plotAll_errOob_clipped (dots : List Dot) (s : State) :
    (plotAll dots s).errOob = (s.errOob || clipped dots) :=
  plotAll_errOob dots s

/-! ## A command is its plots and then its other effect (10_state.md section 1) -/

/-- What a command does once its plots are made. -/
def afterPlots : Instr → State → State
  | .clear, s => moveCursor 0 0 (clearFb s)
  | .setCursor x y, s => moveCursor x y s
  | .writeChar code scale, s | .writeCharOpp code scale, s => if code < 0x80 then advanceCursor scale s else s
  | .registerGlyph code g, s => if code < 0x20 then storeGlyph code g s else s
  | .render, s => emitAll (renderItems s.fb) s
  | _, s => s

/-- The items a command appends to the stream: only RENDER has any (43_serializer.md R91). -/
def commandItems : Instr → State → List TxItem
  | .render, s => renderItems s.fb
  | _, _ => []

theorem commandItems_of_ne_render {i : Instr} (hi : i ≠ .render) (s : State) : commandItems i s = [] := by
  cases i with
  | render => exact absurd rfl hi
  | clear | setPixel | setCursor | writeChar | writeCharOpp | registerGlyph | drawLine | drawRect | drawCircle => rfl

/-- The plots of one character write: its cell's, and none for a rejected code (42_text_engine.md R78, R85). -/
def charDots (o : Orientation) (code scale : Nat) (s : State) : List Dot :=
  match glyphLookup code s with
  | none => []
  | some g => cellDots o g scale s.cursorX.toInt s.cursorY.toInt

/-- A character write in two parts; the second does not depend on the orientation (42_text_engine.md R90). -/
theorem putChar_eq (o : Orientation) (code scale : Nat) (s : State) :
    putChar o code scale s = afterPlots (.writeChar code scale) (plotAll (charDots o code scale s) s) := by
  cases hg : glyphLookup code s with
  | none =>
    have hc : ¬ code < 0x80 := Nat.not_lt.2 (glyphLookup_eq_none_iff.1 hg)
    simp [putChar_of_none hg, charDots, hg, afterPlots, hc]
  | some g =>
    have hc : code < 0x80 := Nat.not_le.1 fun h => by simp [glyphLookup_eq_none_iff.2 h] at hg
    simp [putChar_of_some hg, charDots, hg, afterPlots, hc]

/-- The meaning of every command, in two parts that each later proof takes one by one. -/
theorem exec_eq (i : Instr) (s : State) : exec i s = .next (afterPlots i (plotAll (commandDots i s) s)) := by
  cases i with
  | writeChar code scale => exact congrArg Host.Outcome.next (putChar_eq .normal code scale s)
  | writeCharOpp code scale => exact congrArg Host.Outcome.next (putChar_eq .transposed code scale s)
  | clear | setPixel | setCursor | registerGlyph | drawLine | drawRect | drawCircle | render => rfl

theorem eq_afterPlots_of_exec {i : Instr} {s t : State} (h : exec i s = .next t) :
    t = afterPlots i (plotAll (commandDots i s) s) := by
  rw [exec_eq] at h
  exact (Host.Outcome.next.inj h).symm

/-! ## The second part, field by field -/

/-- What the five operations of the second part leave alone, it leaves alone. -/
theorem afterPlots_keeps {α : Type} (f : State → α) (hmove : ∀ x y s, f (moveCursor x y s) = f s)
    (hclear : ∀ s, f (clearFb s) = f s) (hstore : ∀ c g s, f (storeGlyph c g s) = f s)
    (hadvance : ∀ n s, f (advanceCursor n s) = f s) (hemit : ∀ l s, f (emitAll l s) = f s) (i : Instr) (s : State) :
    f (afterPlots i s) = f s := by
  cases i with
  | clear => exact (hmove 0 0 _).trans (hclear s)
  | setCursor x y => exact hmove x y s
  | writeChar code scale | writeCharOpp code scale =>
    simp only [afterPlots]
    split
    · exact hadvance scale s
    · rfl
  | registerGlyph code g =>
    simp only [afterPlots]
    split
    · exact hstore code g s
    · rfl
  | render => exact hemit _ s
  | setPixel | drawLine | drawRect | drawCircle => rfl

@[simp] theorem afterPlots_errOob (i : Instr) (s : State) : (afterPlots i s).errOob = s.errOob :=
  afterPlots_keeps State.errOob moveCursor_errOob clearFb_errOob storeGlyph_errOob advanceCursor_errOob emitAll_errOob i s

@[simp] theorem afterPlots_errIll (i : Instr) (s : State) : (afterPlots i s).errIll = s.errIll :=
  afterPlots_keeps State.errIll moveCursor_errIll clearFb_errIll storeGlyph_errIll advanceCursor_errIll emitAll_errIll i s

@[simp] theorem afterPlots_busy (i : Instr) (s : State) : (afterPlots i s).busy = s.busy :=
  afterPlots_keeps State.busy moveCursor_busy clearFb_busy storeGlyph_busy advanceCursor_busy emitAll_busy i s

@[simp] theorem afterPlots_inputs (i : Instr) (s : State) : (afterPlots i s).inputs = s.inputs :=
  afterPlots_keeps State.inputs moveCursor_inputs clearFb_inputs storeGlyph_inputs advanceCursor_inputs emitAll_inputs i s

@[simp] theorem afterPlots_tx (i : Instr) (s : State) : (afterPlots i s).tx = s.tx ++ commandItems i s := by
  cases i with
  | writeChar | writeCharOpp | registerGlyph => simp only [afterPlots]; split <;> simp [commandItems]
  | clear | setPixel | setCursor | drawLine | drawRect | drawCircle => exact (List.append_nil _).symm
  | render => rfl

theorem afterPlots_fb {i : Instr} (hi : i ≠ .clear) (s : State) : (afterPlots i s).fb = s.fb := by
  cases i with
  | clear => exact absurd rfl hi
  | writeChar | writeCharOpp | registerGlyph => simp only [afterPlots]; split <;> simp
  | setPixel | setCursor | drawLine | drawRect | drawCircle | render => rfl

/-- The glyph store stays as it is, or a slot's code is registered (42_text_engine.md R88). -/
theorem afterPlots_glyphStore (i : Instr) (s : State) :
    ((afterPlots i s).gram = s.gram ∧ (afterPlots i s).gvalid = s.gvalid) ∨
      ∃ c g, c < 0x20 ∧ i = .registerGlyph c g ∧ afterPlots i s = storeGlyph c g s := by
  cases i with
  | registerGlyph c g =>
    by_cases hc : c < 0x20
    · exact .inr ⟨c, g, hc, rfl, if_pos hc⟩
    · simp [afterPlots, hc]
  | writeChar | writeCharOpp => refine .inl ?_; simp only [afterPlots]; split <;> simp
  | clear | setPixel | setCursor | drawLine | drawRect | drawCircle | render => exact .inl ⟨rfl, rfl⟩

/-! ## A whole command -/

/-- ERR_OOB after a command: set already, or set by one of its plots (10_state.md R20). -/
theorem exec_errOob {i : Instr} {s t : State} (h : exec i s = .next t) :
    t.errOob = (s.errOob || clipped (commandDots i s)) := by
  rw [eq_afterPlots_of_exec h, afterPlots_errOob, plotAll_errOob_clipped]

/-- No command sets ERR_ILL (60_exceptions.md R105). -/
theorem exec_errIll {i : Instr} {s t : State} (h : exec i s = .next t) : t.errIll = s.errIll := by
  rw [eq_afterPlots_of_exec h, afterPlots_errIll, plotAll_errIll]

theorem exec_busy {i : Instr} {s t : State} (h : exec i s = .next t) : t.busy = s.busy := by
  rw [eq_afterPlots_of_exec h, afterPlots_busy, plotAll_busy]

theorem exec_inputs {i : Instr} {s t : State} (h : exec i s = .next t) : t.inputs = s.inputs := by
  rw [eq_afterPlots_of_exec h, afterPlots_inputs, plotAll_inputs]

/-- The items are those of the array before the command: RENDER makes no plot. -/
theorem commandItems_plotAll (i : Instr) (s : State) :
    commandItems i (plotAll (commandDots i s) s) = commandItems i s := by
  cases i <;> rfl

/-- A command appends its items to the stream and takes none away (43_serializer.md R92). -/
theorem exec_tx {i : Instr} {s t : State} (h : exec i s = .next t) : t.tx = s.tx ++ commandItems i s := by
  rw [eq_afterPlots_of_exec h, afterPlots_tx, plotAll_tx, commandItems_plotAll]

/-- No command unsets a glyph slot (10_state.md R18). -/
theorem exec_gvalid_mono {i : Instr} {s t : State} (h : exec i s = .next t) {c : Nat}
    (hc : s.gvalid.getLsbD c = true) : t.gvalid.getLsbD c = true := by
  rw [eq_afterPlots_of_exec h]
  obtain ⟨-, hvalid⟩ | ⟨c', g, -, -, hstore⟩ := afterPlots_glyphStore i (plotAll (commandDots i s) s)
  · rw [hvalid, plotAll_gvalid, hc]
  · simp [hstore, hc]

/-! ## An accepted word (30_encoding.md R62) -/

theorem step_of_word {s : State} {w : CmdWord} {rest : List HostEvent} (hin : s.inputs = .word w :: rest)
    (hbusy : s.busy = false) : step s = completed (executeWord w (accept rest s)) := by
  simp [step, nextEvent, hin, cmdReady, hbusy]

theorem executeWord_of_decode_ok {w : CmdWord} {i : Instr} (h : decode w = .ok i) (s : State) :
    executeWord w s = exec i s := by
  simp [executeWord, h]

theorem executeWord_of_decode_error {w : CmdWord} {e : DecodeError} (h : decode w = .error e) (s : State) :
    executeWord w s = .next (raise .illegalWord s) := by
  simp [executeWord, h]

/-- An accepted word, legal or not, leaves BUSY as it is and only adds to the stream. -/
theorem executeWord_next (w : CmdWord) (s : State) :
    ∃ t new, executeWord w s = .next t ∧ t.busy = s.busy ∧ t.tx = s.tx ++ new := by
  cases hdec : decode w with
  | ok i =>
    obtain ⟨t, ht⟩ := exec_next i s
    exact ⟨t, commandItems i s, by rw [executeWord_of_decode_ok hdec, ht], exec_busy ht, exec_tx ht⟩
  | error e => exact ⟨raise .illegalWord s, [], executeWord_of_decode_error hdec s, by simp, by simp⟩

end Sys2Proof.Machine
end

