-- ==== Sys2Proof/Proofs/State.lean ====
section
/-! PROOFS. What every step keeps of the architectural state, and which command writes which piece of it. -/

namespace Sys2Proof.Machine

/-! ## The invariant: memories in form, BUSY 0, the stream framed -/

theorem streamFramed_nil : StreamFramed [] := ⟨[], by simp, rfl⟩

theorem StreamFramed.append {tx new : List TxItem} (h : StreamFramed tx) (h' : StreamFramed new) :
    StreamFramed (tx ++ new) := by
  obtain ⟨frames, hlen, rfl⟩ := h
  obtain ⟨frames', hlen', rfl⟩ := h'
  refine ⟨frames ++ frames', fun f hf => ?_, (List.flatMap_append ..).symm⟩
  exact (List.mem_append.1 hf).elim (hlen f) (hlen' f)

/-- One RENDER is one frame (43_serializer.md R91). -/
theorem streamFramed_renderItems (fb : Memory) : StreamFramed (renderItems fb) :=
  ⟨[(List.range Config.fbBytes).map (Memory.read fb)], by simp, by simp [renderItems]⟩

theorem streamFramed_commandItems (i : Instr) (s : State) : StreamFramed (commandItems i s) := by
  by_cases hi : i = .render
  · rw [hi]
    exact streamFramed_renderItems s.fb
  · rw [commandItems_of_ne_render hi]
    exact streamFramed_nil

/-- Settles O11: at reset nothing is listed and nothing was sent. -/
theorem invHoldsAtReset : Obligations.InvHoldsAtReset :=
  ⟨rfl, rfl, rfl, streamFramed_nil⟩

/-- Settles O12, by what a step can do: a command keeps both memories in form and appends whole frames. -/
theorem everyStepKeepsInv : Obligations.EveryStepKeepsInv := by
  intro s t hinv hstep
  have ⟨hfb, hgram, _, htx⟩ := hinv
  obtain ⟨-, rfl⟩ | ⟨rest, -, rfl⟩ | ⟨w, rest, -, -, rfl⟩ | ⟨w, rest, i, u, -, -, -, hu, rfl⟩ |
    ⟨w, rest, e, -, -, -, rfl⟩ := step_cases hstep
  · exact hinv
  · exact invHoldsAtReset
  · exact hinv
  · have hfb' := exec_keeps_fb_wf hu hfb
    have hgram' := exec_keeps_gram_wf hu hgram
    have htx' : StreamFramed u.tx := exec_tx hu ▸ htx.append (streamFramed_commandItems i _)
    exact ⟨hfb', hgram', rfl, htx'⟩
  · exact ⟨hfb, hgram, rfl, htx⟩

/-! ## Flags and slots: what only reset clears -/

/-- Settles O14, by what a step can do: a command or-s the flags and the valid bits, an illegal word sets ERR_ILL. -/
theorem onlyResetClearsFlagsAndSlots : Obligations.OnlyResetClearsFlagsAndSlots := by
  intro s t hstep hnoReset
  obtain ⟨-, rfl⟩ | ⟨rest, hreset, -⟩ | ⟨w, rest, -, -, rfl⟩ | ⟨w, rest, i, u, -, -, -, hu, rfl⟩ |
    ⟨w, rest, e, -, -, -, rfl⟩ := step_cases hstep
  · exact ⟨id, id, fun _ => id⟩
  · exact absurd hreset (hnoReset rest)
  · exact ⟨id, id, fun _ => id⟩
  · refine ⟨fun h => ?_, fun h => ?_, fun c h => exec_gvalid_mono hu h⟩
    · simp [exec_errOob hu, h]
    · simp [exec_errIll hu, h]
  · exact ⟨id, fun _ => rfl, fun _ => id⟩

/-! ## The writers of each piece of state (10_state.md section 1) -/

theorem commandDots_eq_nil_or (i : Instr) (s : State) : commandDots i s = [] ∨
    i.mnemonic ∈ ["SET_PIXEL", "WRITE_CHAR", "WRITE_CHAR_OPP", "DRAW_LINE", "DRAW_RECT", "DRAW_CIRCLE"] := by
  cases i with
  | clear | setCursor | registerGlyph | render => exact .inl rfl
  | setPixel | writeChar | writeCharOpp | drawLine | drawRect | drawCircle => simp [Instr.mnemonic]

theorem exec_fb_writers {i : Instr} {s t : State} (h : exec i s = .next t) : t.fb = s.fb ∨ i.mnemonic ∈
    ["CLEAR", "SET_PIXEL", "WRITE_CHAR", "WRITE_CHAR_OPP", "DRAW_LINE", "DRAW_RECT", "DRAW_CIRCLE"] := by
  by_cases hi : i = .clear
  · simp [hi, Instr.mnemonic]
  · rw [eq_afterPlots_of_exec h, afterPlots_fb hi]
    exact (commandDots_eq_nil_or i s).imp (fun hdots => by rw [hdots, plotAll_nil]) (List.mem_cons_of_mem _)

theorem cursor_plotAll (dots : List Dot) (s : State) : cursor (plotAll dots s) = cursor s := by
  simp [cursor]

theorem afterPlots_cursor_writers (i : Instr) (s : State) :
    cursor (afterPlots i s) = cursor s ∨ i.mnemonic ∈ ["CLEAR", "SET_CURSOR", "WRITE_CHAR", "WRITE_CHAR_OPP"] := by
  cases i with
  | clear | setCursor | writeChar | writeCharOpp => simp [Instr.mnemonic]
  | registerGlyph => refine .inl ?_; simp only [afterPlots]; split <;> rfl
  | setPixel | drawLine | drawRect | drawCircle | render => exact .inl rfl

theorem exec_cursor_writers {i : Instr} {s t : State} (h : exec i s = .next t) :
    cursor t = cursor s ∨ i.mnemonic ∈ ["CLEAR", "SET_CURSOR", "WRITE_CHAR", "WRITE_CHAR_OPP"] := by
  rw [eq_afterPlots_of_exec h, ← cursor_plotAll (commandDots i s) s]
  exact afterPlots_cursor_writers i _

theorem exec_glyphStore_writers {i : Instr} {s t : State} (h : exec i s = .next t) :
    (t.gram = s.gram ∧ t.gvalid = s.gvalid) ∨ i.mnemonic ∈ ["REGISTER_GLYPH"] := by
  rw [eq_afterPlots_of_exec h]
  obtain ⟨hgram, hvalid⟩ | ⟨c, g, -, rfl, -⟩ := afterPlots_glyphStore i (plotAll (commandDots i s) s)
  · exact .inl ⟨by rw [hgram, plotAll_gram], by rw [hvalid, plotAll_gvalid]⟩
  · simp [Instr.mnemonic]

theorem exec_errOob_writers {i : Instr} {s t : State} (h : exec i s = .next t) : t.errOob = s.errOob ∨
    i.mnemonic ∈ ["SET_PIXEL", "WRITE_CHAR", "WRITE_CHAR_OPP", "DRAW_LINE", "DRAW_RECT", "DRAW_CIRCLE"] := by
  refine (commandDots_eq_nil_or i s).imp_left fun hdots => ?_
  rw [exec_errOob h, hdots, clipped_nil, Bool.or_false]

theorem exec_tx_writers {i : Instr} {s t : State} (h : exec i s = .next t) :
    t.tx = s.tx ∨ i.mnemonic ∈ ["RENDER"] := by
  by_cases hi : i = .render
  · simp [hi, Instr.mnemonic]
  · rw [exec_tx h, commandItems_of_ne_render hi, List.append_nil]
    exact .inl rfl

/-- Settles O15, one lemma for each piece of state. -/
theorem eachPieceOfStateHasItsWriters : Obligations.EachPieceOfStateHasItsWriters := by
  intro i s t h
  exact ⟨exec_fb_writers h, exec_cursor_writers h, exec_glyphStore_writers h, exec_errOob_writers h,
    exec_tx_writers h, exec_errIll h, exec_busy h, exec_inputs h⟩

/-! ## The flags and the stream are read by no command -/

/-- `s` with other flags and another stream. -/
def withFlags (oob ill : Bool) (tx : List TxItem) (s : State) : State :=
  { s with errOob := oob, errIll := ill, tx := tx }

theorem plot_withFlags (x y : Int) (v a b : Bool) (u : List TxItem) (s : State) :
    plot x y v (withFlags a b u s) = withFlags (a || !inBounds x y) b u (plot x y v s) := by
  cases hin : inBounds x y <;> simp [plot, withFlags, hin, raise]

theorem plotAll_withFlags (dots : List Dot) (a b : Bool) (u : List TxItem) (s : State) :
    plotAll dots (withFlags a b u s) = withFlags (a || clipped dots) b u (plotAll dots s) := by
  induction dots generalizing a s with
  | nil => simp
  | cons d dots ih => simp [plot_withFlags, ih, Bool.or_assoc]

theorem advanceCursor_withFlags (scale : Nat) (a b : Bool) (u : List TxItem) (s : State) :
    advanceCursor scale (withFlags a b u s) = withFlags a b u (advanceCursor scale s) := by
  simp only [advanceCursor, apply_ite (withFlags a b u)]
  rfl

theorem commandDots_withFlags (i : Instr) (a b : Bool) (u : List TxItem) (s : State) :
    commandDots i (withFlags a b u s) = commandDots i s := by
  cases i <;> rfl

theorem afterPlots_withFlags (i : Instr) (a b : Bool) (u : List TxItem) (s : State) :
    afterPlots i (withFlags a b u s) = withFlags a b (u ++ commandItems i s) (afterPlots i s) := by
  cases i with
  | writeChar code scale | writeCharOpp code scale =>
    simp only [afterPlots, advanceCursor_withFlags, commandItems, List.append_nil]
    split <;> rfl
  | registerGlyph code g =>
    simp only [afterPlots, commandItems, List.append_nil]
    split <;> rfl
  | clear | setPixel | setCursor | drawLine | drawRect | drawCircle =>
    simp only [commandItems, List.append_nil]
    rfl
  | render => rfl

/-- Other flags and another stream, and a command does what it did: it or-s its clipping into ERR_OOB and appends its
items. -/
theorem exec_withFlags {i : Instr} {s t : State} (h : exec i s = .next t) (a b : Bool) (u : List TxItem) :
    exec i (withFlags a b u s) = .next (withFlags (a || clipped (commandDots i s)) b (u ++ commandItems i s) t) := by
  rw [exec_eq, commandDots_withFlags, plotAll_withFlags, afterPlots_withFlags, commandItems_plotAll,
    ← eq_afterPlots_of_exec h]

/-- Settles O16: the Boolean is whether a plot is clipped, the items are the command's own. -/
theorem flagsAndStreamAreReadByNoCommand : Obligations.FlagsAndStreamAreReadByNoCommand := by
  intro i s
  obtain ⟨t, ht⟩ := exec_next i s
  exact ⟨t, clipped (commandDots i s), commandItems i s, ht, exec_errOob ht, exec_tx ht, exec_withFlags ht⟩

/-- Settles O24: ERR_OOB after a command is ERR_OOB before it or-ed with the clipping of its plots. -/
theorem errOobTellsWhetherAPlotWasClipped : Obligations.ErrOobTellsWhetherAPlotWasClipped := by
  intro i s t h
  rw [exec_errOob h, Bool.or_eq_false_iff, clipped_eq_false_iff]
  refine ⟨And.right, fun hs ht => ?_⟩
  rw [hs, Bool.false_or] at ht
  exact clipped_eq_true_iff.1 ht

/-! ## The cursor stays on the display -/

theorem cursorOnDisplay_moveCursor {x y : Int} (hx : 0 ≤ x ∧ x < 84) (hy : 0 ≤ y ∧ y < 48) (s : State) :
    CursorOnDisplay (moveCursor x y s) := by
  rw [CursorOnDisplay, moveCursor_cursorX, moveCursor_cursorY, toInt_ofInt_i12 (by omega) (by omega),
    toInt_ofInt_i12 (by omega) (by omega)]
  exact ⟨hx.1, hx.2, hy.1, hy.2⟩

theorem cursorOnDisplay_advanceCursor {s : State} (hs : CursorOnDisplay s) (scale : Nat) :
    CursorOnDisplay (advanceCursor scale s) := by
  obtain ⟨hx0, hx, hy0, hy⟩ := hs
  have h := advanceCursor_toInt scale s
  unfold CursorOnDisplay
  split_ifs at h <;> simp only [Prod.mk.injEq] at h <;> omega

theorem cursorOnDisplay_plotAll {s : State} (hs : CursorOnDisplay s) (dots : List Dot) :
    CursorOnDisplay (plotAll dots s) := by
  simpa [CursorOnDisplay] using hs

theorem cursorOnDisplay_afterPlots {i : Instr} {s : State} (hs : CursorOnDisplay s)
    (hi : ∀ x y, i = .setCursor x y → 0 ≤ x ∧ x < 84 ∧ 0 ≤ y ∧ y < 48) : CursorOnDisplay (afterPlots i s) := by
  cases i with
  | clear => exact cursorOnDisplay_moveCursor (by decide) (by decide) _
  | setCursor x y =>
    obtain ⟨hx0, hx, hy0, hy⟩ := hi x y rfl
    exact cursorOnDisplay_moveCursor ⟨hx0, hx⟩ ⟨hy0, hy⟩ s
  | writeChar code scale | writeCharOpp code scale =>
    simp only [afterPlots]
    split
    · exact cursorOnDisplay_advanceCursor hs scale
    · exact hs
  | registerGlyph => simp only [afterPlots]; split <;> exact hs
  | setPixel | drawLine | drawRect | drawCircle | render => exact hs

theorem nextWord_eq_some {s : State} {w : CmdWord} {rest : List HostEvent} (hin : s.inputs = .word w :: rest)
    (hbusy : s.busy = false) : nextWord s = some w := by
  simp [nextWord, hin, cmdReady, hbusy]

theorem cursorOnDisplay_reset : CursorOnDisplay State.reset := by
  unfold CursorOnDisplay
  decide

/-- Settles O18, by what a step can do: plots do not move the cursor, an advance wraps it. -/
theorem cursorStaysOnDisplay : Obligations.CursorStaysOnDisplay := by
  intro s t hs hword hstep
  obtain ⟨-, rfl⟩ | ⟨rest, -, rfl⟩ | ⟨w, rest, -, -, rfl⟩ | ⟨w, rest, i, u, hin, hbusy, hdec, hu, rfl⟩ |
    ⟨w, rest, e, -, -, -, rfl⟩ := step_cases hstep
  · exact hs
  · exact cursorOnDisplay_reset
  · exact hs
  · have hplots := cursorOnDisplay_plotAll (s := accept rest s) hs (commandDots i (accept rest s))
    have hu' : CursorOnDisplay u := by
      rw [eq_afterPlots_of_exec hu]
      exact cursorOnDisplay_afterPlots hplots fun x y hi => hword w x y (nextWord_eq_some hin hbusy) (hi ▸ hdec)
    exact hu'
  · exact hs

/-! ## One step of an idle block, and the reset values -/

/-- Settles O6: the state with the word taken and BUSY 1 is that of acceptance. -/
theorem stepRunsTheDecodedCommand : Obligations.StepRunsTheDecodedCommand := by
  intro s w rest i hin hbusy hdec
  have hstep : step s = completed (exec i (accept rest s)) := by
    rw [step_of_word hin hbusy, executeWord_of_decode_ok hdec]
  exact ⟨hstep, fun t ht => hstep.trans (congrArg completed ht)⟩

/-- Settles O10: the values by evaluation; CLEAR writes the two things its hypotheses do not fix, FB and the cursor. -/
theorem resetStateHoldsTheSpecValues : Obligations.ResetStateHoldsTheSpecValues := by
  refine ⟨fun _ => rfl, by decide, by decide, by decide, rfl, rfl, rfl, ?_⟩
  rintro s hvalid hoob hill hbusy htx
  refine ⟨_, rfl, ?_⟩
  simp [State.reset, moveCursor, clearFb, *]

end Sys2Proof.Machine
end

