-- ==== Sys2Proof/Proofs/Ports.lean ====
section
/-! PROOFS. The ports: what status and dbg_pixel show, what a busy block ignores, and that the clocked block refines `step`. -/

namespace Sys2Proof.Machine

/-! ## The wires (10_state.md R19, R29) -/

theorem getLsbD_status (s : State) :
    (status s).getLsbD 0 = s.busy ∧ (status s).getLsbD 1 = s.errOob ∧ (status s).getLsbD 2 = s.errIll := by
  simp only [status, BitVec.getLsbD_append, BitVec.getLsbD_ofBool]
  simp

/-- Settles O53: an address is never negative, so the bounds of the display are its two upper bounds. -/
theorem statusAndDebugPorts : Obligations.StatusAndDebugPorts := by
  refine ⟨getLsbD_status, fun p x y hbusy => ?_⟩
  have hin : inBounds (x.toNat : Int) (y.toNat : Int) = decide (x.toNat < 84 ∧ y.toNat < 48) := by
    rw [Bool.eq_iff_iff, inBounds_iff, decide_eq_true_iff]
    omega
  simp [dbgPixel, hbusy, pixel, hin, fbIndex, fbBit]

/-! ## A busy block, and reset (10_state.md R26, 70_reset_and_hazards.md R113, R121) -/

/-- A command in progress looks at `tx_ready` only. -/
theorem portContinue_cmd (i : PortIn) (p : PortState) (valid : Bool) (w : CmdWord) :
    portContinue { i with cmdValid := valid, cmdData := w } p = portContinue i p := rfl

/-- Settles O54, by what a cycle does under reset and while BUSY is 1. -/
theorem busyPortAcceptsNothingAndResetAbandons : Obligations.BusyPortAcceptsNothingAndResetAbandons := by
  refine ⟨fun i p valid w hbusy => ?_, fun i p hrst => ?_⟩
  · by_cases hrst : i.rst = true
    · rw [portCycle_of_rst hrst]
      exact portCycle_of_rst hrst
    · have hrst' := Bool.eq_false_of_not_eq_true hrst
      rw [portCycle_of_busy hrst' hbusy, ← portContinue_cmd i p valid w]
      exact portCycle_of_busy hrst' hbusy
  · rw [portCycle_of_rst hrst]
    exact ⟨rfl, rfl, by simp [portCmdReady, hrst]⟩

/-! ## Refinement (10_state.md R22, R28; 43_serializer.md R96) -/

theorem emitAll_nil (s : State) : emitAll [] s = s := by
  simp [emitAll]

theorem complete_of_idle {s : State} (h : s.busy = false) : complete s = s := by
  simp [complete, ← h]

/-- The port machine is on its way to `t`: the command in progress will end in `t`, and an idle block has nothing left to
hand over. -/
def HeadingFor (t : State) (p : PortState) : Prop := settled p = t ∧ (p.core.busy = false → p.sending = [])

/-- An idle block has arrived. -/
theorem HeadingFor.core_eq {t : State} {p : PortState} (h : HeadingFor t p) (hbusy : p.core.busy = false) :
    p.core = t := by
  obtain ⟨hsettled, hsending⟩ := h
  rw [← hsettled, settled, hsending hbusy, emitAll_nil, complete_of_idle hbusy]

/-- The cycle that accepts a word sets out for the state `step` gives. -/
theorem headingFor_portAccept {w : CmdWord} {p : PortState} {t : State} (hbusy : p.core.busy = false)
    (h : step { p.core with inputs := [.word w] } = .next t) : HeadingFor t (portAccept w p) := by
  obtain ⟨u, new, hu, hub, hutx⟩ := executeWord_next w (accept [] p.core)
  have hstep := step_of_word (s := { p.core with inputs := [.word w] }) rfl hbusy
  have ht : completed (.next u) = .next t := hu ▸ hstep.symm.trans h
  have haccept : portAccept w p =
      ⟨{ u with tx := p.core.tx }, new, Config.busyCycles p.cycle, p.cycle + 1⟩ := by
    simp [portAccept, hu, hutx]
  rw [haccept, ← Host.Outcome.next.inj ht]
  refine ⟨?_, fun hidle => ?_⟩
  · rw [accept_tx] at hutx
    simp [settled, emitAll, complete, ← hutx]
  · simp [hub] at hidle

theorem portContinue_sending_of_idle {i : PortIn} {p : PortState} (hbusy : p.core.busy = true)
    (h : (portContinue i p).core.busy = false) : (portContinue i p).sending = [] := by
  unfold portContinue at h ⊢
  split at h
  · split at h <;> simp [hbusy] at h
  · rename_i hnone
    split <;> exact hnone

/-- A cycle without reset and without a word keeps the course. -/
theorem headingFor_portCycle {t : State} {p : PortState} (h : HeadingFor t p) {j : PortIn} (hrst : j.rst = false)
    (hvalid : j.cmdValid = false) : HeadingFor t (portCycle j p) := by
  cases hbusy : p.core.busy
  · rw [portCycle_of_idle hrst hbusy hvalid]
    exact h
  · rw [portCycle_of_busy hrst hbusy]
    exact ⟨(settled_portContinue j p).trans h.1, portContinue_sending_of_idle hbusy⟩

theorem headingFor_portRun {t : State} {p : PortState} (h : HeadingFor t p) {js : List PortIn}
    (hjs : ∀ j ∈ js, j.rst = false ∧ j.cmdValid = false) : HeadingFor t (portRun js p) := by
  induction js generalizing p with
  | nil => exact h
  | cons j js ih =>
    obtain ⟨hrst, hvalid⟩ := hjs j List.mem_cons_self
    exact ih (headingFor_portCycle h hrst hvalid) fun k hk => hjs k (List.mem_cons_of_mem _ hk)

/-- Settles O55: the accepting cycle sets out for the state `step` gives, and every later cycle keeps that course. -/
theorem portsRefineStep : Obligations.PortsRefineStep := by
  intro p i is t hbusy _ hrst hvalid his hstep
  have hfirst : HeadingFor t (portCycle i p) := by
    rw [portCycle_of_accept hrst hbusy hvalid]
    exact headingFor_portAccept hbusy hstep
  have hrun : HeadingFor t (portRun (i :: is) p) := headingFor_portRun hfirst his
  exact ⟨hrun.1, fun hidle => ⟨hrun.core_eq hidle, hrun.2 hidle⟩⟩

end Sys2Proof.Machine
end

