-- ==== Sys2Proof/Proofs/Memory.lean ====
section
/-! PROOFS. The byte memory, the pixel map, the laws of the plots, and the bytes of FB a command keeps (20_memory.md). -/

namespace Sys2Proof.Machine

/-! ## The byte memory (20_memory.md R31, R34) -/

/-- Settles O19, one law of the byte memory for each clause. -/
theorem memoryReadsWhatWasWritten : Obligations.MemoryReadsWhatWasWritten := by
  intro size m m' a b hm ha
  exact ⟨Memory.wf_write hm ha b, Memory.read_write_same b hm, fun a' hne => Memory.read_write_other hne b m,
    fun hm' hread => Memory.ext_of_wf hm' hm hread⟩

/-! ## The pixel map (20_memory.md R33) -/

/-- The pixel map with the integer division and remainder R33 writes. -/
theorem fbIndex_fbBit_eq {x y : Int} (hx : 0 ≤ x) (hy : 0 ≤ y) :
    (fbIndex x y : Int) = y / 8 * 84 + x ∧ (fbBit y : Int) = y % 8 := by
  simp only [fbIndex, fbBit, Config.width]
  omega

theorem pixel_of_inBounds {x y : Int} (h : inBounds x y = true) (s : State) :
    pixel x y s = (Memory.read s.fb (fbIndex x y)).getLsbD (fbBit y) := if_pos h

/-- Bit `k` of byte `a` holds the pixel in column `a mod 84` and row `8 * (a div 84) + k`. -/
theorem exists_pixel_of_bit {a k : Nat} (ha : a < 504) (hk : k < 8) :
    ∃ x y : Int, inBounds x y = true ∧ fbIndex x y = a ∧ fbBit y = k := by
  refine ⟨(a % 84 : Nat), (a / 84 * 8 + k : Nat), ?_⟩
  simp only [inBounds_iff, fbIndex, fbBit, Config.width]
  omega

/-- Settles O20: the formula, then injectivity and surjectivity onto the bits. -/
theorem pixelMapIsABijection : Obligations.PixelMapIsABijection := by
  refine ⟨fun s x y hx0 hx hy0 hy => ?_, fun x y a b hxy hab hidx hbit => ?_, fun _ _ => exists_pixel_of_bit⟩
  · have hin : inBounds x y = true := inBounds_iff.2 ⟨hx0, hx, hy0, hy⟩
    obtain ⟨hidx, hbit⟩ := fbIndex_fbBit_eq hx0 hy0
    exact ⟨hidx, hbit, fbIndex_lt hin, fbBit_lt y, pixel_of_inBounds hin s⟩
  · exact fbIndex_fbBit_inj hab hxy hidx hbit

/-! ## One plot (20_memory.md R36) -/

theorem plot_of_inBounds {x y : Int} (h : inBounds x y = true) (v : Bool) (s : State) :
    plot x y v s = { s with fb := (plot x y v s).fb } := by
  simp [plot, h]

theorem plot_of_outOfBounds {x y : Int} (h : inBounds x y = false) (v : Bool) (s : State) :
    plot x y v s = { s with errOob := true } := by
  simp [plot, h, raise]

/-- Settles O21, by the two arms of a plot. -/
theorem plotWritesOnePixelOrSetsErrOob : Obligations.PlotWritesOnePixelOrSetsErrOob := by
  intro s x y v hs
  refine ⟨fun hon => ?_, fun hoff => plot_of_outOfBounds (inBounds_eq_false_iff.2 hoff) v s⟩
  have hin : inBounds x y = true := inBounds_iff.2 hon
  refine ⟨plot_of_inBounds hin v s, fun a b => ?_, fun a ha => read_plot_other (fun _ => ha.symm) v s⟩
  simp only [pixel_plot hs, hin, and_true]

/-! ## Plots that show the same picture (20_memory.md R39) -/

theorem OnlyPictureChanged.refl (s : State) : OnlyPictureChanged s s := rfl

theorem OnlyPictureChanged.trans {s t u : State} (hst : OnlyPictureChanged s t) (htu : OnlyPictureChanged t u) :
    OnlyPictureChanged s u := by
  unfold OnlyPictureChanged at *
  rw [htu, hst]

theorem onlyPictureChanged_plot (x y : Int) (v : Bool) (s : State) : OnlyPictureChanged s (plot x y v s) := by
  cases h : inBounds x y
  · rw [plot_of_outOfBounds h]
    rfl
  · rw [plot_of_inBounds h]
    rfl

/-- Plots change nothing but the pixel array and ERR_OOB. -/
theorem onlyPictureChanged_plotAll (dots : List Dot) (s : State) : OnlyPictureChanged s (plotAll dots s) := by
  induction dots generalizing s with
  | nil => exact OnlyPictureChanged.refl s
  | cons d dots ih => exact (onlyPictureChanged_plot d.x d.y d.v s).trans (ih _)

/-- Two lists of plots that leave the same pixels and clip alike do the same: the pixels determine the array. -/
theorem plotAll_eq_of_pixel_eq {s : State} (hs : Memory.wf 504 s.fb = true) {dots dots' : List Dot}
    (hclip : clipped dots = clipped dots')
    (hpixel : ∀ x y, pixel x y (plotAll dots s) = pixel x y (plotAll dots' s)) : plotAll dots s = plotAll dots' s := by
  have hfb : (plotAll dots s).fb = (plotAll dots' s).fb :=
    fb_eq_of_pixel_eq (plotAll_fb_wf hs dots) (plotAll_fb_wf hs dots') hpixel
  have hoob : (plotAll dots s).errOob = (plotAll dots' s).errOob := by
    rw [plotAll_errOob_clipped, plotAll_errOob_clipped, hclip]
  rw [onlyPictureChanged_plotAll dots s, onlyPictureChanged_plotAll dots' s, hfb, hoob]

theorem plot_plot_self {s : State} (hs : Memory.wf 504 s.fb = true) (x y : Int) (v : Bool) :
    plot x y v (plot x y v s) = plot x y v s := by
  refine plotAll_eq_of_pixel_eq hs (dots := [⟨x, y, v⟩, ⟨x, y, v⟩]) (dots' := [⟨x, y, v⟩]) (by simp) fun p q => ?_
  simp only [plotAll_cons, plotAll_nil, pixel_plot (plot_fb_wf hs x y v), pixel_plot hs]
  split <;> rfl

/-- A pixel both plots name gets the one value they carry; any other is named by at most one of them. -/
theorem plot_comm {s : State} (hs : Memory.wf 504 s.fb = true) {x y a b : Int} {v u : Bool}
    (h : v = u ∨ ¬ (x = a ∧ y = b)) : plot a b u (plot x y v s) = plot x y v (plot a b u s) := by
  refine plotAll_eq_of_pixel_eq hs (dots := [⟨x, y, v⟩, ⟨a, b, u⟩]) (dots' := [⟨a, b, u⟩, ⟨x, y, v⟩])
    (by simp [Bool.or_comm]) fun p q => ?_
  simp only [plotAll_cons, plotAll_nil, pixel_plot (plot_fb_wf hs _ _ _), pixel_plot hs]
  split
  · rename_i hab
    split
    · rename_i hxy
      exact (h.resolve_right fun hne => hne ⟨hxy.1.symm.trans hab.1, hxy.2.1.symm.trans hab.2.1⟩).symm
    · rfl
  · rfl

/-- Settles O22: in each clause both sides leave the same pixels and the same ERR_OOB. -/
theorem plotsAreIdempotentAndCommute : Obligations.PlotsAreIdempotentAndCommute := by
  intro s x y a b v u hs
  exact ⟨plot_plot_self hs x y v, plot_comm hs⟩

/-! ## The bytes a command keeps -/

/-- Settles O23: CLEAR aside, only a command's plots write FB, and each only its pixel's byte. -/
theorem commandsKeepEveryOtherByte : Obligations.CommandsKeepEveryOtherByte := by
  intro i s t a hexec hclear hdots
  rw [eq_afterPlots_of_exec hexec, afterPlots_fb hclear]
  exact read_plotAll_other hdots s

end Sys2Proof.Machine
end

