-- ==== Sys2Proof/Proofs/GlyphStore.lean ====
section
/-! PROOFS. The custom glyph store: what a registration writes and keeps, and what the glyph lookup reads of it. -/

namespace Sys2Proof.Machine

/-! ## A registration (42_text_engine.md R88) -/

/-- The five writes of a registration keep every byte of the other slots. -/
theorem read_writeGlyphBytes_other {slot a : Nat} (h : ∀ col < 5, a ≠ gramIndex slot col) (m : Memory) (g : Glyph) :
    Memory.read (writeGlyphBytes m slot g) a = Memory.read m a := by
  unfold writeGlyphBytes
  rw [Memory.read_write_other (h 4 (by decide)), Memory.read_write_other (h 3 (by decide)),
    Memory.read_write_other (h 2 (by decide)), Memory.read_write_other (h 1 (by decide)),
    Memory.read_write_other (h 0 (by decide))]

theorem gramGlyph_storeGlyph_same {s : State} (hs : Memory.wf 160 s.gram = true) {code : Nat} (hcode : code < 32)
    (g : Glyph) : gramGlyph code (storeGlyph code g s) = g := by
  simp [gramGlyph, gramIndex, read_writeGlyphBytes hs hcode]

theorem gramGlyph_storeGlyph_other {code code' : Nat} (hne : code' ≠ code) (g : Glyph) (s : State) :
    gramGlyph code' (storeGlyph code g s) = gramGlyph code' s := by
  have hread : ∀ col < 5, Memory.read (storeGlyph code g s).gram (gramIndex code' col) =
      Memory.read s.gram (gramIndex code' col) := by
    refine fun col hcol => read_writeGlyphBytes_other (fun col' hcol' => ?_) s.gram g
    simp only [gramIndex]
    omega
  simp only [gramGlyph, hread 0 (by decide), hread 1 (by decide), hread 2 (by decide), hread 3 (by decide),
    hread 4 (by decide)]

/-- A registration sets the valid bit of its slot and no other. -/
theorem getLsbD_storeGlyph_gvalid {code : Nat} (hcode : code < 32) (g : Glyph) (s : State) (c : Nat) :
    (storeGlyph code g s).gvalid.getLsbD c = (s.gvalid.getLsbD c || decide (c = code)) := by
  simp [BitVec.getLsbD_twoPow, hcode, eq_comm]

/-! ## The lookup (42_text_engine.md R79) -/

/-- The lookup reads the valid bit and the bytes of its own slot only. -/
theorem glyphLookup_congr {code : Nat} {s t : State} (hvalid : t.gvalid.getLsbD code = s.gvalid.getLsbD code)
    (hglyph : gramGlyph code t = gramGlyph code s) : glyphLookup code t = glyphLookup code s := by
  rw [glyphLookup, glyphLookup, hvalid, hglyph]

theorem glyphLookup_of_gvalid {code : Nat} (hcode : code < 32) {s : State} (hvalid : s.gvalid.getLsbD code = true) :
    glyphLookup code s = some (gramGlyph code s) := by
  have hlimit : ¬ 0x80 ≤ code := by omega
  have hfirst : ¬ 0x20 ≤ code := by omega
  simp [glyphLookup, hlimit, hfirst, hvalid]

theorem glyphLookup_storeGlyph_same {s : State} (hs : Memory.wf 160 s.gram = true) {code : Nat} (hcode : code < 32)
    (g : Glyph) : glyphLookup code (storeGlyph code g s) = some g := by
  have hvalid : (storeGlyph code g s).gvalid.getLsbD code = true := by
    rw [getLsbD_storeGlyph_gvalid hcode, decide_eq_true rfl, Bool.or_true]
  rw [glyphLookup_of_gvalid hcode hvalid, gramGlyph_storeGlyph_same hs hcode]

theorem glyphLookup_storeGlyph_other {code code' : Nat} (hcode : code < 32) (hne : code' ≠ code) (g : Glyph)
    (s : State) : glyphLookup code' (storeGlyph code g s) = glyphLookup code' s := by
  refine glyphLookup_congr ?_ (gramGlyph_storeGlyph_other hne g s)
  rw [getLsbD_storeGlyph_gvalid hcode, decide_eq_false hne, Bool.or_false]

/-! ## The lookup after a command (20_memory.md R45) -/

theorem exec_registerGlyph_of_lt {code : Nat} (hcode : code < 32) (g : Glyph) (s : State) :
    exec (.registerGlyph code g) s = .next (storeGlyph code g s) :=
  congrArg Host.Outcome.next (if_pos hcode)

theorem exec_registerGlyph_of_ge {code : Nat} (hcode : 32 ≤ code) (g : Glyph) (s : State) :
    exec (.registerGlyph code g) s = .next s :=
  congrArg Host.Outcome.next (if_neg (Nat.not_lt.2 hcode))

/-- Only a registration of a code changes what its lookup gives. -/
theorem glyphLookup_exec {i : Instr} {s t : State} (h : exec i s = .next t) {code : Nat}
    (hi : ∀ g, i ≠ .registerGlyph code g) : glyphLookup code t = glyphLookup code s := by
  have hplots : glyphLookup code (plotAll (commandDots i s) s) = glyphLookup code s :=
    glyphLookup_congr (by simp) (by simp [gramGlyph])
  rw [eq_afterPlots_of_exec h, ← hplots]
  obtain ⟨hgram, hvalid⟩ | ⟨c, g, hc, rfl, hstore⟩ := afterPlots_glyphStore i (plotAll (commandDots i s) s)
  · exact glyphLookup_congr (by rw [hvalid]) (by simp only [gramGlyph, hgram])
  · have hne : code ≠ c := fun heq => hi g (heq ▸ rfl)
    rw [hstore, glyphLookup_storeGlyph_other hc hne]

/-- Settles O47: the lookup after the registration, kept by every command but a registration of the same code. -/
theorem registeredGlyphIsDrawnFromThenOn : Obligations.RegisteredGlyphIsDrawnFromThenOn := by
  intro s t code g hs ht
  refine ⟨fun hcode => ?_, fun hcode c => ?_⟩
  · rw [exec_registerGlyph_of_lt hcode] at ht
    have hlookup : glyphLookup code t = some g := by
      rw [← Host.Outcome.next.inj ht]
      exact glyphLookup_storeGlyph_same hs hcode g
    exact ⟨hlookup, fun i u hi hu => (glyphLookup_exec hu hi).trans hlookup⟩
  · rw [exec_registerGlyph_of_ge hcode] at ht
    rw [Host.Outcome.next.inj ht]

end Sys2Proof.Machine
end

