-- ==== Sys2Proof/Proofs/Encoding.lean ====
section
/-! PROOFS. The encoder and the decoder are inverse to each other on well-formed commands and legal words, and which words
are legal. -/

namespace Sys2Proof

/-! ## What a field holds and what it reads as (30_encoding.md R49) -/

theorem toInt_i12 {c : Int} (h : isI12 c = true) : (i12 c).toInt = c := by
  simp only [isI12, Bool.and_eq_true, decide_eq_true_eq] at h
  exact Machine.toInt_ofInt_i12 h.1 h.2

theorem toNat_u8 {n : Nat} (h : isU8 n = true) : (u8 n).toNat = n := by
  simp only [isU8, decide_eq_true_eq] at h
  exact Nat.mod_eq_of_lt h

theorem isI12_sext12At (w : CmdWord) (lo : Nat) : isI12 (sext12At w lo) = true := by
  obtain ⟨hlow, hhigh⟩ := Machine.toInt_i12_bounds (w.extractLsb' lo 12)
  exact Bool.and_eq_true_iff.2 ⟨decide_eq_true hlow, decide_eq_true hhigh⟩

theorem isU8_zext8At (w : CmdWord) (lo : Nat) : isU8 (zext8At w lo) = true :=
  decide_eq_true (byteAt w lo).isLt

theorem i12_sext12At (w : CmdWord) (lo : Nat) : i12 (sext12At w lo) = w.extractLsb' lo 12 :=
  BitVec.ofInt_toInt

theorem u8_zext8At (w : CmdWord) (lo : Nat) : u8 (zext8At w lo) = w.extractLsb' lo 8 :=
  BitVec.ofNat_toNat ..

theorem ofBool_getLsbD (w : CmdWord) (k : Nat) : BitVec.ofBool (w.getLsbD k) = w.extractLsb' k 1 := by
  rw [BitVec.getLsbD_eq_extractLsb']
  generalize w.extractLsb' k 1 = b
  revert b
  decide

/-! ## Reading the operands out of each format

The widths of the parts stay sums (`-Nat.reduceAdd`), so that the laws of the concatenation match. -/

theorem fields_formatXYV (op : Byte) {x y : Int} (v : Bool) (h : (isI12 x && isI12 y) = true) :
    fieldA (formatXYV op x y v) = x ∧ fieldB (formatXYV op x y v) = y ∧ fieldV (formatXYV op x y v) = v := by
  simp only [Bool.and_eq_true] at h
  simp [formatXYV, fieldA, fieldB, fieldV, sext12At, extractLsb'_append_left, extractLsb'_append_right,
    BitVec.getLsbD_append, toInt_i12, h, -BitVec.getLsbD_eq_getElem, -Nat.reduceAdd]

theorem fields_formatXY (op : Byte) {x y : Int} (h : (isI12 x && isI12 y) = true) :
    fieldA (formatXY op x y) = x ∧ fieldB (formatXY op x y) = y := by
  simp only [Bool.and_eq_true] at h
  simp [formatXY, fieldA, fieldB, sext12At, extractLsb'_append_left, extractLsb'_append_right, toInt_i12, h,
    -Nat.reduceAdd]

theorem fields_formatQ (op : Byte) {x1 y1 x2 y2 : Int} (h : (isI12 x1 && isI12 y1 && isI12 x2 && isI12 y2) = true) :
    fieldA (formatQ op x1 y1 x2 y2) = x1 ∧ fieldB (formatQ op x1 y1 x2 y2) = y1 ∧
    fieldC (formatQ op x1 y1 x2 y2) = x2 ∧ fieldD (formatQ op x1 y1 x2 y2) = y2 := by
  simp only [Bool.and_eq_true] at h
  simp [formatQ, fieldA, fieldB, fieldC, fieldD, sext12At, extractLsb'_append_left, extractLsb'_append_right, toInt_i12, h,
    -Nat.reduceAdd]

theorem fields_formatC (op : Byte) {x0 y0 r : Int} (h : (isI12 x0 && isI12 y0 && isI12 r) = true) :
    fieldA (formatC op x0 y0 r) = x0 ∧ fieldB (formatC op x0 y0 r) = y0 ∧ fieldC (formatC op x0 y0 r) = r := by
  simp only [Bool.and_eq_true] at h
  simp [formatC, fieldA, fieldB, fieldC, sext12At, extractLsb'_append_left, extractLsb'_append_right, toInt_i12, h,
    -Nat.reduceAdd]

theorem fields_formatT (op : Byte) {code scale : Nat} (h : (isU8 code && isU8 scale) = true) :
    fieldCode (formatT op code scale) = code ∧ fieldScale (formatT op code scale) = scale := by
  simp only [Bool.and_eq_true] at h
  simp [formatT, fieldCode, fieldScale, zext8At, byteAt, extractLsb'_append_left, extractLsb'_append_right, toNat_u8, h,
    -Nat.reduceAdd]

theorem fields_formatG (op : Byte) {code : Nat} (g : Glyph) (h : isU8 code = true) :
    fieldCode (formatG op code g) = code ∧ fieldGlyph (formatG op code g) = g := by
  simp [formatG, fieldCode, fieldGlyph, zext8At, byteAt, extractLsb'_append_left, extractLsb'_append_right, toNat_u8, h,
    -Nat.reduceAdd]

/-! ## Encoding, then decoding -/

theorem encode_hits_row : ∀ i : Instr, Laws.EncodeHitsRow.Statement i
  | .clear => Laws.EncodeHitsRow.clear
  | .setPixel x y v => Laws.EncodeHitsRow.setPixel x y v
  | .setCursor x y => Laws.EncodeHitsRow.setCursor x y
  | .writeChar code scale => Laws.EncodeHitsRow.writeChar code scale
  | .writeCharOpp code scale => Laws.EncodeHitsRow.writeCharOpp code scale
  | .registerGlyph code g => Laws.EncodeHitsRow.registerGlyph code g
  | .drawLine x1 y1 x2 y2 => Laws.EncodeHitsRow.drawLine x1 y1 x2 y2
  | .drawRect x1 y1 x2 y2 => Laws.EncodeHitsRow.drawRect x1 y1 x2 y2
  | .drawCircle x0 y0 r => Laws.EncodeHitsRow.drawCircle x0 y0 r
  | .render => Laws.EncodeHitsRow.render

/-- The row of a command's name reads the command's operands back from its word. -/
theorem operands_encode {i : Instr} (hi : i.wellFormed = true) :
    ∀ row ∈ opcodeTable, row.mnemonic = i.mnemonic → row.operands (encode i) = i := by
  cases i with
  | clear | render => simp [opcodeTable, Instr.mnemonic]
  | setPixel x y v => simp [opcodeTable, Instr.mnemonic, encode, fields_formatXYV _ v hi]
  | setCursor x y => simp [opcodeTable, Instr.mnemonic, encode, fields_formatXY _ hi]
  | writeChar code scale | writeCharOpp code scale => simp [opcodeTable, Instr.mnemonic, encode, fields_formatT _ hi]
  | registerGlyph code g => simp [opcodeTable, Instr.mnemonic, encode, fields_formatG _ g hi]
  | drawLine x1 y1 x2 y2 | drawRect x1 y1 x2 y2 => simp [opcodeTable, Instr.mnemonic, encode, fields_formatQ _ hi]
  | drawCircle x0 y0 r => simp [opcodeTable, Instr.mnemonic, encode, fields_formatC _ hi]

/-- Settles O2: the encoded word hits the row of the command's name, which reads back every operand. -/
theorem encodeThenDecodeGivesTheCommand : Obligations.EncodeThenDecodeGivesTheCommand := by
  intro i hi
  obtain ⟨row, hrow, hname, hhit⟩ := encode_hits_row i
  exact decode_eq_ok_iff.2 ⟨row, hrow, hhit, operands_encode hi row hrow hname⟩

/-! ## A word whose reserved bits are 0 is its fields put together

Each proof writes opcode and reserved bits as parts of the word too, and glues the adjacent parts. -/

theorem formatN_fields {w : CmdWord} {op : Byte} (hop : w.extractLsb' 56 8 = op) (hres : w.extractLsb' 0 56 = 0#56) :
    formatN op = w := by
  simp [formatN, ← hop, ← hres, BitVec.extractLsb'_append_extractLsb'_eq_extractLsb', -Nat.reduceAdd]

theorem formatXYV_fields {w : CmdWord} {op : Byte} (hop : w.extractLsb' 56 8 = op) (hres : w.extractLsb' 49 7 = 0#7)
    (hlow : w.extractLsb' 0 24 = 0#24) : formatXYV op (fieldA w) (fieldB w) (fieldV w) = w := by
  simp [formatXYV, fieldA, fieldB, fieldV, i12_sext12At, ofBool_getLsbD, ← hop, ← hres, ← hlow,
    BitVec.extractLsb'_append_extractLsb'_eq_extractLsb', -BitVec.getLsbD_eq_getElem, -Nat.reduceAdd]

theorem formatXY_fields {w : CmdWord} {op : Byte} (hop : w.extractLsb' 56 8 = op) (hres : w.extractLsb' 48 8 = 0#8)
    (hlow : w.extractLsb' 0 24 = 0#24) : formatXY op (fieldA w) (fieldB w) = w := by
  simp [formatXY, fieldA, fieldB, i12_sext12At, ← hop, ← hres, ← hlow,
    BitVec.extractLsb'_append_extractLsb'_eq_extractLsb', -Nat.reduceAdd]

theorem formatQ_fields {w : CmdWord} {op : Byte} (hop : w.extractLsb' 56 8 = op) (hres : w.extractLsb' 48 8 = 0#8) :
    formatQ op (fieldA w) (fieldB w) (fieldC w) (fieldD w) = w := by
  simp [formatQ, fieldA, fieldB, fieldC, fieldD, i12_sext12At, ← hop, ← hres,
    BitVec.extractLsb'_append_extractLsb'_eq_extractLsb', -Nat.reduceAdd]

theorem formatC_fields {w : CmdWord} {op : Byte} (hop : w.extractLsb' 56 8 = op) (hres : w.extractLsb' 48 8 = 0#8)
    (hlow : w.extractLsb' 0 12 = 0#12) : formatC op (fieldA w) (fieldB w) (fieldC w) = w := by
  simp [formatC, fieldA, fieldB, fieldC, i12_sext12At, ← hop, ← hres, ← hlow,
    BitVec.extractLsb'_append_extractLsb'_eq_extractLsb', -Nat.reduceAdd]

theorem formatT_fields {w : CmdWord} {op : Byte} (hop : w.extractLsb' 56 8 = op) (hlow : w.extractLsb' 0 40 = 0#40) :
    formatT op (fieldCode w) (fieldScale w) = w := by
  simp [formatT, fieldCode, fieldScale, u8_zext8At, ← hop, ← hlow,
    BitVec.extractLsb'_append_extractLsb'_eq_extractLsb', -Nat.reduceAdd]

theorem formatG_fields {w : CmdWord} {op : Byte} (hop : w.extractLsb' 56 8 = op) (hres : w.extractLsb' 48 8 = 0#8) :
    formatG op (fieldCode w) (fieldGlyph w) = w := by
  simp [formatG, fieldCode, fieldGlyph, byteAt, u8_zext8At, ← hop, ← hres,
    BitVec.extractLsb'_append_extractLsb'_eq_extractLsb', -Nat.reduceAdd]

/-! ## The legal words -/

/-- The opcode is one of the ten, and the reserved bits of its format are 0 (30_encoding.md R48, R50). -/
def HasFormat (w : CmdWord) : Prop :=
  ((w.extractLsb' 56 8 = 0x01#8 ∨ w.extractLsb' 56 8 = 0x30#8) ∧ w.extractLsb' 0 56 = 0#56) ∨
  (w.extractLsb' 56 8 = 0x02#8 ∧ w.extractLsb' 49 7 = 0#7 ∧ w.extractLsb' 0 24 = 0#24) ∨
  (w.extractLsb' 56 8 = 0x03#8 ∧ w.extractLsb' 48 8 = 0#8 ∧ w.extractLsb' 0 24 = 0#24) ∨
  ((w.extractLsb' 56 8 = 0x20#8 ∨ w.extractLsb' 56 8 = 0x21#8) ∧ w.extractLsb' 48 8 = 0#8) ∨
  (w.extractLsb' 56 8 = 0x22#8 ∧ w.extractLsb' 48 8 = 0#8 ∧ w.extractLsb' 0 12 = 0#12) ∨
  ((w.extractLsb' 56 8 = 0x10#8 ∨ w.extractLsb' 56 8 = 0x11#8) ∧ w.extractLsb' 0 40 = 0#40) ∨
  (w.extractLsb' 56 8 = 0x12#8 ∧ w.extractLsb' 48 8 = 0#8)

/-- A row fixes the bits its mask covers. -/
theorem OpcodeRow.extractLsb'_eq_of_hits {row : OpcodeRow} {w : CmdWord} (h : row.hits w = true) {lo len : Nat}
    (hmask : row.mask.extractLsb' lo len = BitVec.allOnes len) :
    w.extractLsb' lo len = row.pattern.extractLsb' lo len := by
  have hw : w &&& row.mask = row.pattern := by simpa [OpcodeRow.hits] using h
  rw [← hw, BitVec.extractLsb'_and, hmask, BitVec.and_allOnes]

theorem hasFormat_of_hits {row : OpcodeRow} (hrow : row ∈ opcodeTable) {w : CmdWord} (hhit : row.hits w = true) :
    HasFormat w := by
  have fixed := fun lo len => OpcodeRow.extractLsb'_eq_of_hits hhit (lo := lo) (len := len)
  simp only [opcodeTable, List.mem_cons, List.not_mem_nil, or_false] at hrow
  rcases hrow with rfl | rfl | rfl | rfl | rfl | rfl | rfl | rfl | rfl | rfl
  · simp [HasFormat, fixed 56 8 rfl, fixed 0 56 rfl]
  · simp [HasFormat, fixed 56 8 rfl, fixed 49 7 rfl, fixed 0 24 rfl]
  · simp [HasFormat, fixed 56 8 rfl, fixed 48 8 rfl, fixed 0 24 rfl]
  · simp [HasFormat, fixed 56 8 rfl, fixed 0 40 rfl]
  · simp [HasFormat, fixed 56 8 rfl, fixed 0 40 rfl]
  · simp [HasFormat, fixed 56 8 rfl, fixed 48 8 rfl]
  · simp [HasFormat, fixed 56 8 rfl, fixed 48 8 rfl]
  · simp [HasFormat, fixed 56 8 rfl, fixed 48 8 rfl]
  · simp [HasFormat, fixed 56 8 rfl, fixed 48 8 rfl, fixed 0 12 rfl]
  · simp [HasFormat, fixed 56 8 rfl, fixed 0 56 rfl]

theorem hasFormat_of_decode_ok {w : CmdWord} {i : Instr} (h : decode w = .ok i) : HasFormat w := by
  obtain ⟨row, hrow, hhit, -⟩ := decode_eq_ok_iff.1 h
  exact hasFormat_of_hits hrow hhit

/-- The encoder reaches every word of a format, from operands in range. -/
theorem exists_encode_of_hasFormat {w : CmdWord} (h : HasFormat w) : ∃ i : Instr, encode i = w ∧ i.wellFormed = true := by
  have hcoord : isI12 (fieldA w) = true ∧ isI12 (fieldB w) = true ∧ isI12 (fieldC w) = true ∧ isI12 (fieldD w) = true :=
    ⟨isI12_sext12At w 36, isI12_sext12At w 24, isI12_sext12At w 12, isI12_sext12At w 0⟩
  have hbyte : isU8 (fieldCode w) = true ∧ isU8 (fieldScale w) = true := ⟨isU8_zext8At w 40, isU8_zext8At w 48⟩
  rcases h with ⟨hop | hop, hres⟩ | ⟨hop, hres, hlow⟩ | ⟨hop, hres, hlow⟩ | ⟨hop | hop, hres⟩ | ⟨hop, hres, hlow⟩ |
    ⟨hop | hop, hlow⟩ | ⟨hop, hres⟩
  · exact ⟨.clear, formatN_fields hop hres, rfl⟩
  · exact ⟨.render, formatN_fields hop hres, rfl⟩
  · exact ⟨.setPixel _ _ _, formatXYV_fields hop hres hlow, by simp [Instr.wellFormed, hcoord]⟩
  · exact ⟨.setCursor _ _, formatXY_fields hop hres hlow, by simp [Instr.wellFormed, hcoord]⟩
  · exact ⟨.drawLine _ _ _ _, formatQ_fields hop hres, by simp [Instr.wellFormed, hcoord]⟩
  · exact ⟨.drawRect _ _ _ _, formatQ_fields hop hres, by simp [Instr.wellFormed, hcoord]⟩
  · exact ⟨.drawCircle _ _ _, formatC_fields hop hres hlow, by simp [Instr.wellFormed, hcoord]⟩
  · exact ⟨.writeChar _ _, formatT_fields hop hlow, by simp [Instr.wellFormed, hbyte]⟩
  · exact ⟨.writeCharOpp _ _, formatT_fields hop hlow, by simp [Instr.wellFormed, hbyte]⟩
  · exact ⟨.registerGlyph _ _, formatG_fields hop hres, by simp [Instr.wellFormed, hbyte]⟩

/-- Settles O3: a legal word is the encoding of some command, which is the one it decodes to. -/
theorem decodeThenEncodeGivesTheWord : Obligations.DecodeThenEncodeGivesTheWord := by
  intro w i hdec
  obtain ⟨j, rfl, hj⟩ := exists_encode_of_hasFormat (hasFormat_of_decode_ok hdec)
  obtain rfl : j = i := by simpa [encodeThenDecodeGivesTheCommand j hj] using hdec
  exact ⟨rfl, hj⟩

/-- Settles O5: the word of a format is an encoded command, which decodes. -/
theorem legalWordsAreThoseOfTheFormats : Obligations.LegalWordsAreThoseOfTheFormats := by
  intro w
  refine ⟨fun ⟨i, hdec⟩ => hasFormat_of_decode_ok hdec, fun h => ?_⟩
  obtain ⟨i, rfl, hi⟩ := exists_encode_of_hasFormat h
  exact ⟨i, encodeThenDecodeGivesTheCommand i hi⟩

/-- Settles O4: every row's mask covers the opcode, and the ten opcodes differ. -/
theorem opcodeRowsAreDisjoint : Obligations.OpcodeRowsAreDisjoint := by
  intro w r hr r' hr' hhit hhit'
  have hop := (OpcodeRow.opcode_eq_of_hits hr hhit).symm.trans (OpcodeRow.opcode_eq_of_hits hr' hhit')
  rw [opcodeTable_opcode_inj hr hr' hop]

/-- Settles O1, by evaluation. -/
theorem specWordsDecodeToTheirCommands : Obligations.SpecWordsDecodeToTheirCommands := by
  unfold Obligations.SpecWordsDecodeToTheirCommands
  decide

end Sys2Proof
end

