-- ==== Sys2Proof/Proofs/WriteString.lean ====
section
/-! PROOFS. The words of write_string's expansion run to the iteration of the character writes. -/

namespace Sys2Proof.Machine

/-! ## A character write does not depend on the host's side of the state -/

/-- `s` with other acts of the host to come, and another BUSY. -/
def withHost (inputs : List HostEvent) (busy : Bool) (s : State) : State := { s with inputs := inputs, busy := busy }

theorem plot_withHost (x y : Int) (v : Bool) (l : List HostEvent) (b : Bool) (s : State) :
    plot x y v (withHost l b s) = withHost l b (plot x y v s) := by
  cases hin : inBounds x y <;> simp [plot, withHost, hin, raise]

theorem plotAll_withHost (dots : List Dot) (l : List HostEvent) (b : Bool) (s : State) :
    plotAll dots (withHost l b s) = withHost l b (plotAll dots s) := by
  induction dots generalizing s with
  | nil => rfl
  | cons d dots ih => rw [plotAll_cons, plot_withHost, ih, plotAll_cons]

theorem advanceCursor_withHost (scale : Nat) (l : List HostEvent) (b : Bool) (s : State) :
    advanceCursor scale (withHost l b s) = withHost l b (advanceCursor scale s) := by
  simp only [advanceCursor, apply_ite (withHost l b)]
  rfl

theorem putChar_withHost (o : Orientation) (code scale : Nat) (l : List HostEvent) (b : Bool) (s : State) :
    putChar o code scale (withHost l b s) = withHost l b (putChar o code scale s) := by
  have hlookup : glyphLookup code (withHost l b s) = glyphLookup code s := rfl
  cases hg : glyphLookup code s with
  | none => rw [putChar_of_none hg, putChar_of_none (hlookup.trans hg)]
  | some g =>
    rw [putChar_of_some hg, putChar_of_some (hlookup.trans hg), plotAll_withHost, advanceCursor_withHost]
    rfl

/-! ## One word of the expansion, then all of them -/

/-- The command `write_string` gives one character (30_encoding.md R61). -/
def charCommand (scale : Nat) (opposite : Bool) (ch : Byte) : Instr :=
  if opposite then .writeCharOpp ch.toNat scale else .writeChar ch.toNat scale

/-- The character write of that command (42_text_engine.md R87). -/
def writeByte (scale : Nat) (opposite : Bool) (s : State) (ch : Byte) : State :=
  putChar (if opposite then .transposed else .normal) ch.toNat scale s

theorem charCommand_wellFormed {scale : Nat} (hscale : scale < 256) (opposite : Bool) (ch : Byte) :
    (charCommand scale opposite ch).wellFormed = true := by
  have hch : ch.toNat < 256 := ch.isLt
  cases opposite <;> simp [charCommand, Instr.wellFormed, isU8, hch, hscale]

theorem exec_charCommand (scale : Nat) (opposite : Bool) (ch : Byte) (s : State) :
    exec (charCommand scale opposite ch) s = .next (writeByte scale opposite s ch) := by
  cases opposite <;> rfl

theorem step_charWord {scale : Nat} (hscale : scale < 256) (opposite : Bool) (ch : Byte) (rest : List HostEvent)
    (s : State) :
    step (withHost (.word (encode (charCommand scale opposite ch)) :: rest) false s) =
      .next (withHost rest false (writeByte scale opposite s ch)) := by
  have hdec := encodeThenDecodeGivesTheCommand _ (charCommand_wellFormed hscale opposite ch)
  rw [step_of_word rfl rfl, executeWord_of_decode_ok hdec, exec_charCommand]
  exact congrArg (fun t => completed (.next t)) (putChar_withHost _ _ _ rest true s)

theorem run_succ_of_step {s t : State} (h : step s = .next t) (k : Nat) :
    Host.Core.run core (k + 1) s = Host.Core.run core k t := by
  have hcore : core.step s = .next t := h
  simp only [Host.Core.run, hcore]

theorem run_charWords {scale : Nat} (hscale : scale < 256) (opposite : Bool) (rest : List HostEvent) (bytes : List Byte)
    (s : State) :
    Host.Core.run core bytes.length
      (withHost ((bytes.map fun ch => .word (encode (charCommand scale opposite ch))) ++ rest) false s) =
      .next (withHost rest false (bytes.foldl (writeByte scale opposite) s)) := by
  induction bytes generalizing s with
  | nil => rfl
  | cons ch bytes ih =>
    exact (run_succ_of_step (step_charWord hscale opposite ch _ s) bytes.length).trans (ih _)

theorem writeString_busy (text : List Byte) (scale : Nat) (opposite : Bool) (s : State) :
    (writeString text scale opposite s).busy = s.busy := by
  unfold writeString
  induction stringBytes text generalizing s with
  | nil => rfl
  | cons ch bytes ih => rw [List.foldl_cons, ih, putChar_busy]

/-- Settles O49, by induction on the bytes before the first zero byte, one step each. -/
theorem writeStringIsItsExpansion : Obligations.WriteStringIsItsExpansion := by
  intro s text scale opposite rest hscale hbusy hin
  have hrun := run_charWords hscale opposite rest (stringBytes text) s
  have hstart : withHost ((stringBytes text).map (fun ch => .word (encode (charCommand scale opposite ch))) ++ rest) false s
      = s := by
    rw [expandString, List.map_map] at hin
    exact congrArg₂ (withHost · · s) hin.symm hbusy.symm
  have hend : withHost rest false (writeString text scale opposite s) =
      { writeString text scale opposite s with inputs := rest } := by
    rw [withHost, ← hbusy, ← writeString_busy text scale opposite s]
  rw [hstart] at hrun
  exact hrun.trans (congrArg Host.Outcome.next hend)

end Sys2Proof.Machine
end

