-- ==== Sys2Proof/Proofs/Observable.lean ====
section
/-! PROOFS. States that agree on the observable state stay so: no command shows a glyph byte that no lookup reads
(40_framebuffer_ops.md R66). -/

namespace Sys2Proof.Machine

/-! ## Another glyph store in the same state -/

/-- `s` with other bytes in the custom glyph store. -/
def withGram (m : Memory) (s : State) : State := { s with gram := m }

theorem plot_withGram (x y : Int) (v : Bool) (m : Memory) (s : State) :
    plot x y v (withGram m s) = withGram m (plot x y v s) := by
  cases hin : inBounds x y <;> simp [plot, withGram, hin, raise]

theorem plotAll_withGram (dots : List Dot) (m : Memory) (s : State) :
    plotAll dots (withGram m s) = withGram m (plotAll dots s) :=
  List.foldl_hom (withGram m) fun s d => plot_withGram d.x d.y d.v m s

theorem advanceCursor_withGram (scale : Nat) (m : Memory) (s : State) :
    advanceCursor scale (withGram m s) = withGram m (advanceCursor scale s) := by
  simp only [advanceCursor, apply_ite (withGram m)]
  rfl

/-- What follows a command's plots reads no glyph byte: all else it does, it does as before. -/
theorem exists_afterPlots_withGram (i : Instr) (m : Memory) (s : State) :
    ∃ m', afterPlots i (withGram m s) = withGram m' (afterPlots i s) := by
  cases i with
  | writeChar code scale | writeCharOpp code scale =>
    refine ⟨m, ?_⟩
    simp only [afterPlots, advanceCursor_withGram]
    split <;> rfl
  | registerGlyph code g =>
    by_cases hcode : code < 0x20
    · simp only [afterPlots, if_pos hcode]
      exact ⟨writeGlyphBytes m code g, rfl⟩
    · simp only [afterPlots, if_neg hcode]
      exact ⟨m, rfl⟩
  | clear | setPixel | setCursor | drawLine | drawRect | drawCircle | render => exact ⟨m, rfl⟩

/-! ## States that differ in hidden glyph bytes only -/

/-- The two states differ in the glyph store only, and there in no byte that a glyph lookup shows (42_text_engine.md R79). -/
def SameShown (s t : State) : Prop := (∃ m, t = withGram m s) ∧ ∀ code, glyphLookup code t = glyphLookup code s

/-- The lookup reads the bytes of a slot only if the slot is valid. -/
theorem glyphLookup_eq_of_valid_slots {s t : State} (hvalid : t.gvalid = s.gvalid)
    (hglyph : ∀ c < 32, s.gvalid.getLsbD c = true → gramGlyph c s = gramGlyph c t) (code : Nat) :
    glyphLookup code t = glyphLookup code s := by
  cases hset : s.gvalid.getLsbD code
  · simp [glyphLookup, hvalid, hset]
  · exact glyphLookup_congr (by rw [hvalid]) (hglyph code (BitVec.lt_of_getLsbD hset) hset).symm

theorem eq_withGram_of_fields_eq {s t : State} (hfb : s.fb = t.fb) (hx : s.cursorX = t.cursorX)
    (hy : s.cursorY = t.cursorY) (hvalid : s.gvalid = t.gvalid) (hstatus : status s = status t) (htx : s.tx = t.tx)
    (hin : s.inputs = t.inputs) : t = withGram t.gram s := by
  obtain ⟨hbusy, hoob, hill⟩ := getLsbD_status s
  obtain ⟨hbusy', hoob', hill'⟩ := getLsbD_status t
  rw [hstatus] at hbusy hoob hill
  rw [withGram, hfb, hx, hy, hvalid, htx, hin, ← hbusy, ← hoob, ← hill, hbusy', hoob', hill']

/-- Canonical arrays that show the same pixels are the same, so the observable state determines all but hidden bytes. -/
theorem sameShown_of_obsEq {s t : State} (hs : Inv s) (ht : Inv t) (h : ObsEq s t) : SameShown s t := by
  obtain ⟨hpixel, hx, hy, hvalid, hglyph, hstatus, htx, hin⟩ := h
  have hfb : s.fb = t.fb := fb_eq_of_pixel_eq hs.1 ht.1 hpixel
  exact ⟨⟨t.gram, eq_withGram_of_fields_eq hfb hx hy hvalid hstatus htx hin⟩,
    glyphLookup_eq_of_valid_slots hvalid.symm hglyph⟩

theorem obsEq_of_sameShown {s t : State} (h : SameShown s t) : ObsEq s t := by
  obtain ⟨⟨m, rfl⟩, hlookup⟩ := h
  refine ⟨fun _ _ => rfl, rfl, rfl, rfl, fun c hc hset => ?_, rfl, rfl, rfl⟩
  have hc' := hlookup c
  rw [glyphLookup_of_gvalid hc hset, glyphLookup_of_gvalid hc (s := withGram m s) hset] at hc'
  exact (Option.some.inj hc').symm

/-! ## A command, a step, a run -/

/-- The plots read the glyph store through the lookup only. -/
theorem commandDots_of_sameShown {s t : State} (h : SameShown s t) (i : Instr) : commandDots i t = commandDots i s := by
  obtain ⟨⟨m, rfl⟩, hlookup⟩ := h
  cases i with
  | writeChar code scale | writeCharOpp code scale =>
    simp only [commandDots, hlookup]
    rfl
  | clear | setPixel | setCursor | registerGlyph | drawLine | drawRect | drawCircle | render => rfl

/-- A command keeps two lookups alike: it changes one only by registering its code, and then both give the new glyph. -/
theorem glyphLookup_exec_eq {i : Instr} {s t u v : State} (hs : Memory.wf 160 s.gram = true)
    (ht : Memory.wf 160 t.gram = true) (hu : exec i s = .next u) (hv : exec i t = .next v) {code : Nat}
    (h : glyphLookup code t = glyphLookup code s) : glyphLookup code v = glyphLookup code u := by
  by_cases hreg : ∃ g, i = .registerGlyph code g
  · obtain ⟨g, rfl⟩ := hreg
    obtain hcode | hcode := Nat.lt_or_ge code 32
    · rw [exec_registerGlyph_of_lt hcode] at hu hv
      rw [← Host.Outcome.next.inj hu, ← Host.Outcome.next.inj hv, glyphLookup_storeGlyph_same hs hcode,
        glyphLookup_storeGlyph_same ht hcode]
    · rw [exec_registerGlyph_of_ge hcode] at hu hv
      rw [← Host.Outcome.next.inj hu, ← Host.Outcome.next.inj hv, h]
  · have hne : ∀ g, i ≠ .registerGlyph code g := not_exists.1 hreg
    rw [glyphLookup_exec hv hne, glyphLookup_exec hu hne, h]

/-- Both states make the same plots, and nothing after them reads a glyph byte. -/
theorem sameShown_exec {i : Instr} {s t u v : State} (h : SameShown s t) (hs : Memory.wf 160 s.gram = true)
    (ht : Memory.wf 160 t.gram = true) (hu : exec i s = .next u) (hv : exec i t = .next v) : SameShown u v := by
  have hdots := commandDots_of_sameShown h i
  refine ⟨?_, fun code => glyphLookup_exec_eq hs ht hu hv (h.2 code)⟩
  obtain ⟨⟨m, rfl⟩, -⟩ := h
  rw [eq_afterPlots_of_exec hu, eq_afterPlots_of_exec hv, hdots, plotAll_withGram]
  exact exists_afterPlots_withGram i m _

theorem sameShown_executeWord {w : CmdWord} {s t u v : State} (h : SameShown s t)
    (hs : Memory.wf 160 s.gram = true) (ht : Memory.wf 160 t.gram = true) (hu : executeWord w s = .next u)
    (hv : executeWord w t = .next v) : SameShown u v := by
  cases hdec : decode w with
  | ok i =>
    rw [executeWord_of_decode_ok hdec] at hu hv
    exact sameShown_exec h hs ht hu hv
  | error e =>
    rw [executeWord_of_decode_error hdec] at hu hv
    obtain ⟨⟨m, rfl⟩, hlookup⟩ := h
    rw [← Host.Outcome.next.inj hu, ← Host.Outcome.next.inj hv]
    exact ⟨⟨m, rfl⟩, hlookup⟩

theorem sameShown_accept {s t : State} (h : SameShown s t) (rest : List HostEvent) :
    SameShown (accept rest s) (accept rest t) := by
  obtain ⟨⟨m, rfl⟩, hlookup⟩ := h
  exact ⟨⟨m, rfl⟩, hlookup⟩

theorem sameShown_complete {s t : State} (h : SameShown s t) : SameShown (complete s) (complete t) := by
  obtain ⟨⟨m, rfl⟩, hlookup⟩ := h
  exact ⟨⟨m, rfl⟩, hlookup⟩

theorem sameShown_refl (s : State) : SameShown s s := ⟨⟨s.gram, rfl⟩, fun _ => rfl⟩

theorem step_of_nil {s : State} (hin : s.inputs = []) : step s = .next s := by
  simp [step, nextEvent, hin]

theorem step_of_reset {s : State} {rest : List HostEvent} (hin : s.inputs = .reset :: rest) :
    step s = .next (resetBlock rest) := by
  simp [step, nextEvent, hin]

/-- The host's next act is the same in both states, and it leaves hidden bytes hidden. -/
theorem sameShown_step {s t s' t' : State} (h : SameShown s t) (hs : Inv s) (ht : Inv t) (hstep : step s = .next s')
    (hstep' : step t = .next t') : SameShown s' t' := by
  obtain ⟨-, hsgram, hsbusy, -⟩ := hs
  obtain ⟨-, htgram, htbusy, -⟩ := ht
  have hin : t.inputs = s.inputs := by
    obtain ⟨⟨m, rfl⟩, -⟩ := h
    rfl
  cases hacts : s.inputs with
  | nil =>
    rw [step_of_nil hacts] at hstep
    rw [step_of_nil (hin.trans hacts)] at hstep'
    rwa [← Host.Outcome.next.inj hstep, ← Host.Outcome.next.inj hstep']
  | cons act rest =>
    cases act with
    | reset =>
      rw [step_of_reset hacts] at hstep
      rw [step_of_reset (hin.trans hacts)] at hstep'
      rw [← Host.Outcome.next.inj hstep, ← Host.Outcome.next.inj hstep']
      exact sameShown_refl _
    | word w =>
      obtain ⟨u, -, hu, -, -⟩ := executeWord_next w (accept rest s)
      obtain ⟨v, -, hv, -, -⟩ := executeWord_next w (accept rest t)
      have huv : SameShown u v := sameShown_executeWord (sameShown_accept h rest) hsgram htgram hu hv
      rw [step_of_word hacts hsbusy, hu] at hstep
      rw [step_of_word (hin.trans hacts) htbusy, hv] at hstep'
      rw [← Host.Outcome.next.inj hstep, ← Host.Outcome.next.inj hstep']
      exact sameShown_complete huv

/-- A run of `n + 1` steps is a step and a run of `n`: no step stops. -/
theorem exists_step_of_run_succ {n : Nat} {s s' : State} (h : Host.Core.run core (n + 1) s = .next s') :
    ∃ u, step s = .next u ∧ Host.Core.run core n u = .next s' := by
  cases hstep : step s with
  | next u => exact ⟨u, rfl, by rw [← run_succ_of_step hstep, h]⟩
  | fault f => exact nomatch f
  | refused r =>
    have hcore : core.step s = .refused r := hstep
    simp [Host.Core.run, hcore] at h

/-- Settles O17: by induction on the number of steps, each of which leaves hidden glyph bytes hidden. -/
theorem observablyEqualStatesStayObservablyEqual : Obligations.ObservablyEqualStatesStayObservablyEqual := by
  intro n s t s' t' hs ht hobs hrun hrun'
  have hshown := sameShown_of_obsEq hs ht hobs
  clear hobs
  induction n generalizing s t with
  | zero =>
    rw [← Host.Outcome.next.inj hrun, ← Host.Outcome.next.inj hrun']
    exact obsEq_of_sameShown hshown
  | succ n ih =>
    obtain ⟨u, hu, hrun⟩ := exists_step_of_run_succ hrun
    obtain ⟨v, hv, hrun'⟩ := exists_step_of_run_succ hrun'
    have huv : SameShown u v := sameShown_step hshown hs ht hu hv
    exact ih u v (everyStepKeepsInv s u hs hu) (everyStepKeepsInv t v ht hv) hrun hrun' huv

end Sys2Proof.Machine
end

