-- ==== Sys2Proof/Proofs/Framebuffer.lean ====
section
/-! PROOFS. CLEAR, SET_PIXEL, SET_CURSOR: what each leaves in the state (40_framebuffer_ops.md R63 to R65). -/

namespace Sys2Proof.Machine

/-! ## SET_PIXEL (40_framebuffer_ops.md R64) -/

/-- The bytes after a plot on the display, by the formula of R64. -/
theorem read_plot {s : State} (hs : Memory.wf 504 s.fb = true) {x y : Int} (hin : inBounds x y = true) (v : Bool)
    (a : Nat) :
    Memory.read (plot x y v s).fb a =
      if (a : Int) = y / 8 * 84 + x then withBit (Memory.read s.fb a) (y % 8).toNat v else Memory.read s.fb a := by
  obtain ⟨hx, -, hy, -⟩ := inBounds_iff.1 hin
  obtain ⟨hidx, hbit⟩ := fbIndex_fbBit_eq hx hy
  have hbyte : (a : Int) = y / 8 * 84 + x ↔ a = fbIndex x y := by rw [← hidx, Nat.cast_inj]
  rw [plot_fb_inBounds hin, Memory.read_write hs, ← hbit, Int.toNat_natCast]
  by_cases ha : a = fbIndex x y
  · rw [if_pos ha, if_pos (hbyte.2 ha), ha]
  · rw [if_neg ha, if_neg (ha ∘ hbyte.1)]

theorem pixel_plot_same {s : State} (hs : Memory.wf 504 s.fb = true) {x y : Int} (hin : inBounds x y = true) (v : Bool) :
    pixel x y (plot x y v s) = v := by
  rw [pixel_plot hs, if_pos ⟨rfl, rfl, hin⟩]

/-- Settles O26: SET_PIXEL is one plot, and setting the pixel again is another. -/
theorem setPixelResult : Obligations.SetPixelResult := by
  intro s x y v hs
  refine ⟨plot x y v s, rfl, onlyPictureChanged_plot x y v s, fun hon => ?_, fun hoff => ?_, by decide⟩
  · have hin : inBounds x y = true := inBounds_iff.2 hon
    have hflag : (plot x y v s).errOob = s.errOob := by rw [plot_errOob, hin, Bool.not_true, Bool.or_false]
    exact ⟨hflag, read_plot hs hin v, pixel_plot_same hs hin v, plot x y (!v) (plot x y v s), rfl,
      pixel_plot_same (plot_fb_wf hs x y v) hin (!v)⟩
  · exact plot_of_outOfBounds (inBounds_eq_false_iff.2 hoff) v s

/-! ## CLEAR and SET_CURSOR (40_framebuffer_ops.md R63, R65) -/

theorem pixel_of_fb_nil {s : State} (h : s.fb = []) (x y : Int) : pixel x y s = false := by
  simp [pixel, h]

/-- Settles O25: an array that lists nothing reads 0x00 everywhere. -/
theorem clearZeroesArrayAndCursor : Obligations.ClearZeroesArrayAndCursor := by
  intro s
  exact ⟨moveCursor 0 0 (clearFb s), rfl, Memory.read_nil, rfl, rfl, pixel_of_fb_nil rfl, rfl, rfl⟩

theorem cursor_moveCursor {x y : Int} (hx : isI12 x = true) (hy : isI12 y = true) (s : State) :
    cursor (moveCursor x y s) = (x, y) :=
  Prod.ext (toInt_i12 hx) (toInt_i12 hy)

/-- Settles O27: an `i12` register holds every operand an `i12` field can hold. -/
theorem setCursorStoresItsOperands : Obligations.SetCursorStoresItsOperands := by
  intro s x y hwf
  have hxy : isI12 x = true ∧ isI12 y = true := by simpa only [Instr.wellFormed, Bool.and_eq_true] using hwf
  exact ⟨moveCursor x y s, rfl, cursor_moveCursor hxy.1 hxy.2 s, rfl, by decide⟩

end Sys2Proof.Machine
end

