-- ==== Sys2Proof/Proofs/Lines.lean ====
section
/-! PROOFS. DRAW_LINE and DRAW_RECT: the DDA sequence point by point, and what plotting a point list leaves in the state
(41_rasterizer.md R69 to R73). -/

namespace Sys2Proof.Machine

/-! ## Plotting a point list (41_rasterizer.md R69) -/

theorem clipped_setDots (points : List (Int × Int)) :
    clipped (setDots points) = points.any fun p => !inBounds p.1 p.2 := by
  simp [clipped, setDots, List.any_map, Function.comp_def]

theorem pixel_of_outOfBounds {x y : Int} (h : inBounds x y = false) (s : State) : pixel x y s = false := by
  simp [pixel, h]

/-- Only the set of the points counts, not their order or how often each occurs. -/
theorem plotAll_setDots_congr {s : State} (hs : Memory.wf 504 s.fb = true) {points points' : List (Int × Int)}
    (h : ∀ p, p ∈ points ↔ p ∈ points') : plotAll (setDots points) s = plotAll (setDots points') s := by
  refine plotAll_eq_of_pixel_eq hs ?_ fun a b => ?_
  · rw [clipped_setDots, clipped_setDots, Bool.eq_iff_iff]
    simp only [List.any_eq_true, h]
  · cases hab : inBounds a b
    · rw [pixel_of_outOfBounds hab, pixel_of_outOfBounds hab]
    · simp only [pixel_plotAll_setDots hs _ hab, h]

theorem pixel_plotAll_setDots_iff {s : State} (hs : Memory.wf 504 s.fb = true) (points : List (Int × Int)) {a b : Int}
    (hab : inBounds a b = true) :
    pixel a b (plotAll (setDots points) s) = true ↔ pixel a b s = true ∨ (a, b) ∈ points := by
  simp [pixel_plotAll_setDots hs points hab]

theorem plotAll_setDots_errOob_iff (points : List (Int × Int)) (s : State) :
    (plotAll (setDots points) s).errOob = true ↔ s.errOob = true ∨ ∃ p ∈ points, inBounds p.1 p.2 = false := by
  simp only [plotAll_setDots_errOob, Bool.or_eq_true, List.any_eq_true, Bool.not_eq_true']

/-! ## One coordinate of the DDA sequence (41_rasterizer.md R70) -/

theorem lineCoord_first (c1 c2 : Int) {n : Nat} (hn : 0 < n) : lineCoord c1 c2 n 0 = c1 := by
  simp only [lineCoord, Nat.cast_zero, zero_mul, add_zero]
  exact roundHalfAway_mul (by omega) c1

/-- Both directions round the same rational number (R72 (e)). -/
theorem lineCoord_reverse (c1 c2 : Int) {n i : Nat} (hi : i ≤ n) : lineCoord c2 c1 n i = lineCoord c1 c2 n (n - i) := by
  have hnum : c2 * n + i * (c1 - c2) = c1 * n + ((n - i : Nat) : Int) * (c2 - c1) := by
    push_cast [hi]
    ring
  rw [lineCoord, lineCoord, hnum]

theorem lineCoord_last (c1 c2 : Int) {n : Nat} (hn : 0 < n) : lineCoord c1 c2 n n = c2 := by
  rw [lineCoord_reverse c2 c1 le_rfl, Nat.sub_self, lineCoord_first c2 c1 hn]

/-- On the major axis every step moves the coordinate by one (R72 (a)). -/
theorem lineCoord_major {c1 c2 : Int} {n : Nat} (hn : 0 < n) (hd : (c2 - c1).natAbs = n) (i : Nat) :
    lineCoord c1 c2 n i = c1 + i * (c2 - c1).sign := by
  rcases le_total c1 c2 with hle | hle
  · rw [lineCoord_up hn.ne' (by omega), Int.sign_eq_one_of_pos (by omega), mul_one]
  · rw [lineCoord_down hn.ne' (by omega), Int.sign_eq_neg_one_of_neg (by omega), mul_neg_one, Int.sub_eq_add_neg]

/-- Quotients less than one apart round to integers at most one apart. Exactly one apart would not do: `-1/2` and `1/2`
round to `-1` and `1`. -/
theorem abs_roundHalfAway_sub_le_one {n m d : Int} (hd : 0 < d) (h : |n - m| < d) :
    |roundHalfAway n d - roundHalfAway m d| ≤ 1 := by
  obtain ⟨hn, -⟩ := roundingIsToNearestTiesAway n d hd
  obtain ⟨hm, -⟩ := roundingIsToNearestTiesAway m d hd
  generalize roundHalfAway n d = a at hn ⊢
  generalize roundHalfAway m d = b at hm ⊢
  have hprod : |(a - b) * d| < 2 * d := by
    have hsum : (a - b) * d = (n - m) - (n - a * d) + (m - b * d) := by ring
    have htriangle := (abs_add_le _ _).trans (add_le_add_left (abs_sub (n - m) (n - a * d)) |m - b * d|)
    rw [hsum]
    linarith
  rw [abs_mul, abs_of_pos hd] at hprod
  exact Int.lt_add_one_iff.1 (lt_of_mul_lt_mul_right hprod hd.le)

/-- Consecutive points differ by at most one in each coordinate (R72 (c)). -/
theorem abs_lineCoord_succ_sub_le_one {c1 c2 : Int} {n : Nat} (hn : 0 < n) (hd : (c2 - c1).natAbs ≤ n) (i : Nat) :
    |lineCoord c1 c2 n (i + 1) - lineCoord c1 c2 n i| ≤ 1 := by
  rcases hd.eq_or_lt with hmajor | hminor
  · have hmove : c1 + ((i + 1 : Nat) : Int) * (c2 - c1).sign - (c1 + i * (c2 - c1).sign) = (c2 - c1).sign := by
      push_cast
      ring
    rw [lineCoord_major hn hmajor, lineCoord_major hn hmajor, hmove]
    rcases Int.sign_trichotomy (c2 - c1) with h | h | h <;> simp [h]
  · refine abs_roundHalfAway_sub_le_one (by omega) ?_
    have hmove : c1 * n + ((i + 1 : Nat) : Int) * (c2 - c1) - (c1 * n + i * (c2 - c1)) = c2 - c1 := by
      push_cast
      ring
    rw [hmove, Int.abs_eq_natAbs]
    exact_mod_cast hminor

/-! ## The DDA sequence (41_rasterizer.md R70) -/

/-- `P_i`. -/
def linePoint (x1 y1 x2 y2 : Int) (i : Nat) : Int × Int :=
  (lineCoord x1 x2 (lineSteps x1 y1 x2 y2) i, lineCoord y1 y2 (lineSteps x1 y1 x2 y2) i)

theorem linePoints_eq_map {x1 y1 x2 y2 : Int} (h : 0 < lineSteps x1 y1 x2 y2) :
    linePoints x1 y1 x2 y2 = (List.range (lineSteps x1 y1 x2 y2 + 1)).map (linePoint x1 y1 x2 y2) :=
  if_neg h.ne'

theorem eq_of_lineSteps_eq_zero {x1 y1 x2 y2 : Int} (h : lineSteps x1 y1 x2 y2 = 0) : x2 = x1 ∧ y2 = y1 := by
  simp only [lineSteps] at h
  omega

theorem lineSteps_comm (x1 y1 x2 y2 : Int) : lineSteps x2 y2 x1 y1 = lineSteps x1 y1 x2 y2 := by
  simp only [lineSteps]
  omega

theorem getElem?_linePoints {x1 y1 x2 y2 : Int} (h : 0 < lineSteps x1 y1 x2 y2) {i : Nat} {p : Int × Int}
    (hp : (linePoints x1 y1 x2 y2)[i]? = some p) : p = linePoint x1 y1 x2 y2 i := by
  rw [linePoints_eq_map h, List.getElem?_map, Option.map_eq_some_iff] at hp
  obtain ⟨j, hj, rfl⟩ := hp
  obtain ⟨-, rfl⟩ := List.getElem?_eq_some_iff.1 hj
  rw [List.getElem_range]

theorem linePoint_first {x1 y1 x2 y2 : Int} (h : 0 < lineSteps x1 y1 x2 y2) : linePoint x1 y1 x2 y2 0 = (x1, y1) :=
  Prod.ext (lineCoord_first x1 x2 h) (lineCoord_first y1 y2 h)

theorem linePoint_last {x1 y1 x2 y2 : Int} (h : 0 < lineSteps x1 y1 x2 y2) :
    linePoint x1 y1 x2 y2 (lineSteps x1 y1 x2 y2) = (x2, y2) :=
  Prod.ext (lineCoord_last x1 x2 h) (lineCoord_last y1 y2 h)

theorem linePoint_reverse {x1 y1 x2 y2 : Int} {i : Nat} (hi : i ≤ lineSteps x1 y1 x2 y2) :
    linePoint x2 y2 x1 y1 i = linePoint x1 y1 x2 y2 (lineSteps x1 y1 x2 y2 - i) := by
  rw [linePoint, lineSteps_comm, lineCoord_reverse x1 x2 hi, lineCoord_reverse y1 y2 hi, linePoint]

theorem linePoint_major {x1 y1 x2 y2 : Int} (h : 0 < lineSteps x1 y1 x2 y2) (i : Nat) :
    ((y2 - y1).natAbs ≤ (x2 - x1).natAbs → (linePoint x1 y1 x2 y2 i).1 = x1 + i * (x2 - x1).sign) ∧
    ((x2 - x1).natAbs ≤ (y2 - y1).natAbs → (linePoint x1 y1 x2 y2 i).2 = y1 + i * (y2 - y1).sign) :=
  ⟨fun hle => lineCoord_major h (max_eq_left hle).symm i, fun hle => lineCoord_major h (max_eq_right hle).symm i⟩

theorem eq_of_add_mul_sign_eq {c d : Int} (hd : d ≠ 0) {i j : Nat} (h : c + i * d.sign = c + j * d.sign) : i = j :=
  Nat.cast_injective (mul_right_cancel₀ (mt Int.sign_eq_zero_iff_zero.1 hd) (add_left_cancel h))

/-- Points of different number differ on the major axis (R72 (d)). -/
theorem linePoint_injective {x1 y1 x2 y2 : Int} (h : 0 < lineSteps x1 y1 x2 y2) :
    Function.Injective (linePoint x1 y1 x2 y2) := by
  intro i j hij
  obtain ⟨hxi, hyi⟩ := linePoint_major h i
  obtain ⟨hxj, hyj⟩ := linePoint_major h j
  rw [hij] at hxi hyi
  simp only [lineSteps] at h
  rcases le_total (y2 - y1).natAbs (x2 - x1).natAbs with hle | hle
  · exact eq_of_add_mul_sign_eq (by omega) ((hxi hle).symm.trans (hxj hle))
  · exact eq_of_add_mul_sign_eq (by omega) ((hyi hle).symm.trans (hyj hle))

/-! ## DRAW_LINE (41_rasterizer.md R71, R72) -/

/-- Settles O29: the command plots the list of R70, and plots of value 1 OR their point set into the array. -/
theorem drawLineResult : Obligations.DrawLineResult := by
  intro s x1 y1 x2 y2 hs
  refine ⟨plotAll (setDots (linePoints x1 y1 x2 y2)) s, rfl, onlyPictureChanged_plotAll _ s,
    lineSteps x1 y1 x2 y2, linePoints x1 y1 x2 y2, rfl, rfl, fun a b ha ha' hb hb' => ?_,
    plotAll_setDots_errOob _ s, by decide⟩
  exact pixel_plotAll_setDots hs _ (inBounds_iff.2 ⟨ha, ha', hb, hb'⟩)

/-- Settles O30: a line of no step has one point; on any other the list's entry `i` is `P_i`. -/
theorem linesAreGaplessBetweenTheirEndPoints : Obligations.LinesAreGaplessBetweenTheirEndPoints := by
  intro x1 y1 x2 y2
  refine ⟨length_linePoints x1 y1 x2 y2, ?_⟩
  rcases Nat.eq_zero_or_pos (lineSteps x1 y1 x2 y2) with h | h
  · obtain ⟨rfl, rfl⟩ := eq_of_lineSteps_eq_zero h
    simp [linePoints_of_steps_eq_zero h, List.getElem?_singleton]
  · refine ⟨?_, ?_, ?_, fun i p hp => ?_, fun i p q hp hq => ?_⟩
    · simp [linePoints_eq_map h, List.range_succ_eq_map, linePoint_first h]
    · simp [linePoints_eq_map h, List.range_succ, linePoint_last h]
    · rw [linePoints_eq_map h]
      exact List.nodup_range.map (linePoint_injective h)
    · rw [getElem?_linePoints h hp]
      exact linePoint_major h i
    · rw [getElem?_linePoints h hp, getElem?_linePoints h hq]
      exact ⟨abs_lineCoord_succ_sub_le_one h (le_max_left _ _) i, abs_lineCoord_succ_sub_le_one h (le_max_right _ _) i⟩

/-- Exchanging the end points reverses the sequence (R72 (e)). -/
theorem linePoints_reverse (x1 y1 x2 y2 : Int) : linePoints x2 y2 x1 y1 = (linePoints x1 y1 x2 y2).reverse := by
  rcases Nat.eq_zero_or_pos (lineSteps x1 y1 x2 y2) with h | h
  · obtain ⟨rfl, rfl⟩ := eq_of_lineSteps_eq_zero h
    simp [linePoints_of_steps_eq_zero h]
  · rw [linePoints_eq_map h, linePoints_eq_map (by rwa [lineSteps_comm]), lineSteps_comm]
    refine List.ext_getElem (by simp) fun i hi _ => ?_
    simp only [List.length_map, List.length_range, Nat.lt_succ_iff] at hi
    simp [linePoint_reverse hi]

/-- Settles O31: the reversed list names the same points. -/
theorem linesDoNotDependOnTheirDirection : Obligations.LinesDoNotDependOnTheirDirection := by
  intro x1 y1 x2 y2
  have hrev := linePoints_reverse x1 y1 x2 y2
  refine ⟨hrev, fun s hs => congrArg Host.Outcome.next (plotAll_setDots_congr hs fun p => ?_)⟩
  rw [hrev, List.mem_reverse]

/-! ## DRAW_RECT (41_rasterizer.md R73) -/

/-- The four edges make up the perimeter, for every order of the operands. -/
theorem mem_rectPoints {x1 y1 x2 y2 a b : Int} :
    (a, b) ∈ rectPoints x1 y1 x2 y2 ↔
      min x1 x2 ≤ a ∧ a ≤ max x1 x2 ∧ min y1 y2 ≤ b ∧ b ≤ max y1 y2 ∧ (a = x1 ∨ a = x2 ∨ b = y1 ∨ b = y2) := by
  simp only [rectPoints, List.mem_append, mem_linePoints_horizontal, mem_linePoints_vertical]
  omega

/-- Settles O32: the command plots the four edges, whose points are the perimeter. -/
theorem drawRectSetsThePerimeter : Obligations.DrawRectSetsThePerimeter := by
  intro s x1 y1 x2 y2 hs
  refine ⟨plotAll (setDots (rectPoints x1 y1 x2 y2)) s, rfl, onlyPictureChanged_plotAll _ s,
    fun a b ha ha' hb hb' => ?_, ?_, by decide⟩
  · rw [pixel_plotAll_setDots_iff hs _ (inBounds_iff.2 ⟨ha, ha', hb, hb'⟩), mem_rectPoints]
  · simp only [plotAll_setDots_errOob_iff, Prod.exists, mem_rectPoints, inBounds_eq_false_iff, and_assoc]

end Sys2Proof.Machine
end

