-- ==== Sys2Proof/Proofs/Circles.lean ====
section
/-! PROOFS. DRAW_CIRCLE: the loop of the midpoint iteration, its bounds, and the points it plots (41_rasterizer.md R74 to
R76). -/

namespace Sys2Proof.Machine

/-! ## The loop (41_rasterizer.md R74) -/

theorem circleTraceFrom_of_lt {v : Int × Int × Int} (h : v.1 < v.2.1) (n : Nat) : circleTraceFrom n v = [] := by
  cases n with
  | zero => rfl
  | succ n => exact if_neg (by omega)

theorem head?_circleTraceFrom {n : Nat} {v : Int × Int × Int} (hfuel : v.1 - v.2.1 + 1 ≤ n) :
    (circleTraceFrom n v).head? = if v.2.1 ≤ v.1 then some v else none := by
  rw [circleTraceFrom_unroll hfuel]
  split <;> rfl

/-- An iteration was let in by the loop's test; the test alone decides whether `circleNext` of it is the next one. -/
theorem getElem?_succ_circleTraceFrom {n k : Nat} {v w : Int × Int × Int} (hfuel : v.1 - v.2.1 + 1 ≤ n)
    (hw : (circleTraceFrom n v)[k]? = some w) :
    w.2.1 ≤ w.1 ∧ (circleTraceFrom n v)[k + 1]? =
      if (circleNext w).2.1 ≤ (circleNext w).1 then some (circleNext w) else none := by
  have hv : v.2.1 ≤ v.1 := by
    by_contra hlt
    simp [circleTraceFrom_of_lt (not_le.1 hlt)] at hw
  have hnext : (circleNext v).1 - (circleNext v).2.1 + 1 ≤ n := by
    have hcloser := circleNext_closer v
    omega
  rw [circleTraceFrom_unroll hfuel, if_pos hv] at hw ⊢
  cases k with
  | zero =>
    cases hw
    exact ⟨hv, by rw [List.getElem?_cons_succ, ← List.head?_eq_getElem?, head?_circleTraceFrom hnext]⟩
  | succ k => exact getElem?_succ_circleTraceFrom hnext hw

theorem circleTrace_fuel (r : Int) : r - 0 + 1 ≤ ((r + 1).toNat : Int) := by omega

theorem head?_circleTrace (r : Int) : (circleTrace r).head? = if 0 ≤ r then some (r, 0, 0) else none :=
  head?_circleTraceFrom (circleTrace_fuel r)

theorem getElem?_succ_circleTrace {r : Int} {k : Nat} {v : Int × Int × Int} (hv : (circleTrace r)[k]? = some v) :
    v.2.1 ≤ v.1 ∧ (circleTrace r)[k + 1]? =
      if (circleNext v).2.1 ≤ (circleNext v).1 then some (circleNext v) else none :=
  getElem?_succ_circleTraceFrom (circleTrace_fuel r) hv

theorem circleTrace_eq_nil_iff (r : Int) : circleTrace r = [] ↔ r < 0 := by
  rw [← List.head?_eq_none_iff, head?_circleTrace]
  simp

/-- What holds of the start and, whenever the loop goes on, from one iteration to the next, holds of every iteration. -/
theorem circleTrace_induction {P : Nat → Int × Int × Int → Prop} {r : Int} (hstart : P 0 (r, 0, 0))
    (hnext : ∀ k v, P k v → v.2.1 ≤ v.1 → (circleNext v).2.1 ≤ (circleNext v).1 → P (k + 1) (circleNext v))
    {k : Nat} {v : Int × Int × Int} (hv : (circleTrace r)[k]? = some v) : P k v := by
  induction k generalizing v with
  | zero =>
    rw [← List.head?_eq_getElem?, head?_circleTrace] at hv
    split at hv
    · cases hv
      exact hstart
    · cases hv
  | succ k ih =>
    obtain ⟨hlt, -⟩ := List.getElem?_eq_some_iff.1 hv
    have hu := List.getElem?_eq_getElem (Nat.lt_of_succ_lt hlt)
    obtain ⟨htest, hsucc⟩ := getElem?_succ_circleTrace hu
    rw [hsucc] at hv
    split at hv
    · rename_i hgo
      cases hv
      exact hnext k _ (ih hu) htest hgo
    · cases hv

/-- Settles O34: the start, the test and the successor of an iteration of the loop. -/
theorem circleLoopRunsWhileXIsAtLeastY : Obligations.CircleLoopRunsWhileXIsAtLeastY := by
  intro r
  refine ⟨circleTrace_eq_nil_iff r, fun hr => ?_, fun v hv => ?_, fun k x y err hk => ?_⟩
  · rw [head?_circleTrace, if_pos hr]
  · obtain ⟨k, hk⟩ := List.mem_iff_getElem?.1 hv
    exact (getElem?_succ_circleTrace hk).1
  · refine ⟨_, _, _, rfl, rfl, rfl, ?_⟩
    rw [(getElem?_succ_circleTrace hk).2]
    rcases circleNext_cases x y err with ⟨herr, herr', h⟩ | ⟨herr, herr', h⟩ | ⟨herr, h⟩
    · simp [h, herr, herr'.not_gt]
    · simp [h, herr, herr']
    · simp [h, herr, herr.not_ge]

/-! ## The bounds (41_rasterizer.md R76 (e), (f)) -/

/-- What holds after `k` iterations: `y` has counted them; `err` is the sum of its increments, and positive only if the
test ends the loop; `x` has gone down, or no iteration was made. -/
structure CircleInv (r : Int) (k : Nat) (v : Int × Int × Int) : Prop where
  y_eq : v.2.1 = k
  x_ge : -1 ≤ v.1
  err_eq : v.2.2 = v.1 ^ 2 + (v.2.1 + 1) ^ 2 - 1 - r ^ 2
  err_le : v.2.2 ≤ max 0 (2 * (v.2.1 - v.1))
  start_or_later : v = (r, 0, 0) ∨ v.1 < r ∧ 4 - 2 * r ≤ v.2.2

theorem circleInv_start {r : Int} (hr : 0 ≤ r) : CircleInv r 0 (r, 0, 0) where
  y_eq := rfl
  x_ge := by omega
  err_eq := by ring
  err_le := le_max_left 0 _
  start_or_later := .inl rfl

theorem CircleInv.err_nonpos {r : Int} {k : Nat} {v : Int × Int × Int} (h : CircleInv r k v) (htest : v.2.1 ≤ v.1) :
    v.2.2 ≤ 0 :=
  h.err_le.trans (max_le le_rfl (by omega))

/-- With `err` not positive the first `if` raises `y`; the second lowers `x` or not. -/
theorem circleNext_cases_of_nonpos {x y err : Int} (h : err ≤ 0) :
    (err + 2 * y + 3 ≤ 0 ∧ circleNext (x, y, err) = (x, y + 1, err + 2 * y + 3)) ∨
    (0 < err + 2 * y + 3 ∧ circleNext (x, y, err) = (x - 1, y + 1, err + 2 * y - 2 * x + 4)) := by
  have hup : err + 2 * (y + 1) + 1 = err + 2 * y + 3 := by ring
  have hdown : err + 2 * (y + 1) + 1 - (2 * (x - 1) + 1) = err + 2 * y - 2 * x + 4 := by ring
  rcases circleNext_cases x y err with ⟨-, hle, hn⟩ | ⟨-, hlt, hn⟩ | ⟨hpos, -⟩
  · exact .inl ⟨hup ▸ hle, by rw [hn, hup]⟩
  · exact .inr ⟨hup ▸ hlt, by rw [hn, hdown]⟩
  · omega

/-- Every iteration keeps the invariant. At the start `err + 2 * y + 3` is 3, so the first iteration lowers `x`. -/
theorem CircleInv.next {r : Int} {k : Nat} {v : Int × Int × Int} (h : CircleInv r k v) (htest : v.2.1 ≤ v.1) :
    CircleInv r (k + 1) (circleNext v) := by
  have hnonpos := h.err_nonpos htest
  obtain ⟨x, y, err⟩ := v
  obtain ⟨hy, -, herr, -, hfirst⟩ := h
  simp only [Prod.mk.injEq] at hy herr hfirst hnonpos htest
  rcases circleNext_cases_of_nonpos (x := x) (y := y) hnonpos with ⟨hle, hn⟩ | ⟨hlt, hn⟩
  · rw [hn]
    constructor <;> dsimp only
    case err_eq => rw [herr]; ring
    case start_or_later => exact .inr (by omega)
    all_goals omega
  · rw [hn]
    constructor <;> dsimp only
    case err_eq => rw [herr]; ring
    case start_or_later => exact .inr (by omega)
    all_goals omega

theorem circleInv_of_getElem? {r : Int} (hr : 0 ≤ r) {k : Nat} {v : Int × Int × Int}
    (hv : (circleTrace r)[k]? = some v) : CircleInv r k v :=
  circleTrace_induction (circleInv_start hr) (fun _ _ h htest _ => h.next htest) hv

/-- From `y ≤ x` and `err ≤ 0`: `y^2 + (y + 1)^2 ≤ r^2 + 1`, and 1447 is too large a `y` for that. -/
theorem CircleInv.lt_of_test {r : Int} {k : Nat} {v : Int × Int × Int} (h : CircleInv r k v) (hr : 0 ≤ r)
    (hr' : r ≤ 2047) (htest : v.2.1 ≤ v.1) : k < 1447 := by
  have hnonpos := h.err_nonpos htest
  obtain ⟨hy, -, herr, -, -⟩ := h
  by_contra hk
  have hy' : 1447 ≤ v.2.1 := by omega
  have hx2 : (1447 : Int) ^ 2 ≤ v.1 ^ 2 := pow_le_pow_left₀ (by omega) (by omega) 2
  have hy2 : (1448 : Int) ^ 2 ≤ (v.2.1 + 1) ^ 2 := pow_le_pow_left₀ (by omega) (by omega) 2
  have hr2 : r ^ 2 ≤ 2047 ^ 2 := pow_le_pow_left₀ hr hr' 2
  omega

theorem CircleInv.bounds {r : Int} {k : Nat} {v : Int × Int × Int} (h : CircleInv r k v) (hr' : r ≤ 2047)
    (hk : k ≤ 1447) : -1 ≤ v.1 ∧ v.1 ≤ r ∧ 0 ≤ v.2.1 ∧ v.2.1 ≤ 1447 ∧ |v.2.2| ≤ 4090 := by
  obtain ⟨hy, hx, -, herr, rfl | ⟨hx', herr'⟩⟩ := h
  · exact ⟨hx, le_rfl, le_rfl, by norm_num, by norm_num⟩
  · exact ⟨hx, by omega, by omega, by omega, abs_le.2 ⟨by omega, by omega⟩⟩

theorem length_circleTrace_le {r : Int} (hr : 0 ≤ r) (hr' : r ≤ 2047) : (circleTrace r).length ≤ 1447 := by
  by_contra hlen
  have hk := List.getElem?_eq_getElem (not_le.1 hlen)
  exact lt_irrefl _ ((circleInv_of_getElem? hr hk).lt_of_test hr hr' (getElem?_succ_circleTrace hk).1)

/-- Settles O37: the invariant holds before and after each of the at most 1447 iterations. -/
theorem circleWorkingValuesAreBounded : Obligations.CircleWorkingValuesAreBounded := by
  intro r hr hr'
  refine ⟨length_circleTrace_le hr hr', fun v hv => ?_⟩
  obtain ⟨k, hk⟩ := List.mem_iff_getElem?.1 hv
  have htest := (getElem?_succ_circleTrace hk).1
  have hinv := circleInv_of_getElem? hr hk
  have hlt := hinv.lt_of_test hr hr' htest
  exact ⟨hinv.bounds hr' hlt.le, (hinv.next htest).bounds hr' hlt⟩

/-! ## The points (41_rasterizer.md R75, R76) -/

/-- Settles O33: the command plots the eight points of every iteration. -/
theorem drawCircleResult : Obligations.DrawCircleResult := by
  intro s x0 y0 r hs
  refine ⟨plotAll (setDots (circlePoints x0 y0 r)) s, rfl, onlyPictureChanged_plotAll _ s,
    fun a b ha ha' hb hb' => ?_, plotAll_setDots_errOob_iff _ s, by decide⟩
  simp only [pixel_plotAll_setDots_iff hs _ (inBounds_iff.2 ⟨ha, ha', hb, hb'⟩), mem_circlePoints, mem_octantPoints]

theorem circlePoints_zero (x0 y0 : Int) : circlePoints x0 y0 0 = List.replicate 8 (x0, y0) := by
  simp [circlePoints, circleTrace, circleTraceFrom, octantPoints, List.replicate]

theorem circlePoints_of_neg {r : Int} (hr : r < 0) (x0 y0 : Int) : circlePoints x0 y0 r = [] := by
  rw [circlePoints, (circleTrace_eq_nil_iff r).2 hr, List.flatMap_nil]

/-- The eight points of the first iteration, `(r, 0, 0)`, are the extreme points. -/
theorem mem_circlePoints_of_mem_first {x0 y0 r : Int} (hr : 0 ≤ r) {p : Int × Int}
    (hp : p ∈ octantPoints x0 y0 r 0) : p ∈ circlePoints x0 y0 r := by
  have hfirst : (r, 0, 0) ∈ circleTrace r := List.mem_of_head? (by rw [head?_circleTrace, if_pos hr])
  exact List.mem_flatMap.2 ⟨(r, 0, 0), hfirst, hp⟩

/-- Settles O35: the lists of points for `r = 0` and `r < 0`, and the first iteration. -/
theorem circleCornerCases : Obligations.CircleCornerCases := by
  refine ⟨fun s x0 y0 hs => congrArg Host.Outcome.next ?_, fun s x0 y0 r hr => congrArg Host.Outcome.next ?_,
    fun x0 y0 r hr => ?_⟩
  · refine plotAll_setDots_congr hs (points' := [(x0, y0)]) fun p => ?_
    simp [circlePoints_zero]
  · rw [circlePoints_of_neg hr]
    rfl
  · refine ⟨?_, ?_, ?_, ?_⟩ <;> exact mem_circlePoints_of_mem_first hr (by simp [mem_octantPoints])

/-- Settles O36: each reflection permutes the eight points of every iteration. -/
theorem circlesAreEightWaySymmetric : Obligations.CirclesAreEightWaySymmetric := by
  intro x0 y0 r a b hab
  obtain ⟨v, hv, hp⟩ := mem_circlePoints.1 hab
  simp only [mem_circlePoints]
  rw [mem_octantPoints] at hp
  refine ⟨⟨v, hv, ?_⟩, ⟨v, hv, ?_⟩, ⟨v, hv, ?_⟩, ⟨v, hv, ?_⟩⟩ <;> rw [mem_octantPoints] <;> omega

end Sys2Proof.Machine
end

