-- ==== Sys2Proof/Proofs/Characters.lean ====
section
/-! PROOFS. The character writes: which glyph a code draws, the cell it overwrites, and where the cursor goes
(42_text_engine.md R79 to R86). -/

namespace Sys2Proof.Machine

/-! ## The lookup (42_text_engine.md R79) -/

theorem glyphLookup_of_printable {code : Nat} (h : 0x20 ≤ code ∧ code < 0x80) (s : State) :
    glyphLookup code s = some (romGlyph (code - 0x20)) := by
  simp [glyphLookup, h]

theorem glyphLookup_of_not_gvalid {code : Nat} (hcode : code < 0x20) {s : State}
    (hvalid : s.gvalid.getLsbD code = false) : glyphLookup code s = some (Config.fontRom 0) := by
  have hlimit : ¬ 0x80 ≤ code := by omega
  have hfirst : ¬ 0x20 ≤ code := by omega
  simp [glyphLookup, hlimit, hfirst, hvalid, romGlyph]

theorem romGlyph_of_lt {entry : Nat} (h : entry < 96) : romGlyph entry = Config.fontRom ⟨entry, h⟩ :=
  congrArg Config.fontRom (Fin.ext (Nat.mod_eq_of_lt h))

/-- Settles O39, one law of the lookup for each range of codes. -/
theorem glyphLookupCases : Obligations.GlyphLookupCases := by
  intro s code
  refine ⟨glyphLookup_eq_none_iff.2, fun h => ?_, fun hcode hvalid => glyphLookup_of_gvalid hcode hvalid,
    fun hcode hvalid => glyphLookup_of_not_gvalid hcode hvalid⟩
  rw [glyphLookup_of_printable h, romGlyph_of_lt]

theorem exists_glyphLookup_of_lt {code : Nat} (hcode : code < 0x80) (s : State) : ∃ g, glyphLookup code s = some g :=
  Option.ne_none_iff_exists'.1 fun h => Nat.not_le.2 hcode (glyphLookup_eq_none_iff.1 h)

theorem lt_of_glyphLookup_eq_some {code : Nat} {s : State} {g : Glyph} (hg : glyphLookup code s = some g) :
    code < 0x80 := by
  by_contra hcode
  simp [glyphLookup_eq_none_iff.2 (Nat.not_lt.1 hcode)] at hg

/-! ## The cursor after a character write (42_text_engine.md R84) -/

theorem cursor_advanceCursor (scale : Nat) (s : State) :
    cursor (advanceCursor scale s) =
      if (cursor s).1 + 5 * scale + 1 ≥ 84 then
        (0, if (cursor s).2 + 7 * scale + 1 ≥ 48 then 0 else (cursor s).2 + 7 * scale + 1)
      else ((cursor s).1 + 5 * scale + 1, (cursor s).2) :=
  advanceCursor_toInt scale s

/-- The plots do not move the cursor, so it goes where the advance takes it, in either orientation. -/
theorem cursor_putChar {code : Nat} (hcode : code < 0x80) (o : Orientation) (scale : Nat) (s : State) :
    cursor (putChar o code scale s) = cursor (advanceCursor scale s) := by
  obtain ⟨g, hg⟩ := exists_glyphLookup_of_lt hcode s
  rw [putChar_of_some hg, cursor_advanceCursor, cursor_plotAll, cursor_advanceCursor]

/-- Both commands are a character write, of the one orientation or the other (42_text_engine.md R90). -/
theorem exec_eq_putChar {i : Instr} {code scale : Nat} (hi : i ∈ [Instr.writeChar code scale, .writeCharOpp code scale]) :
    ∃ o, ∀ s, exec i s = .next (putChar o code scale s) := by
  simp only [List.mem_cons, List.not_mem_nil, or_false] at hi
  rcases hi with rfl | rfl
  · exact ⟨.normal, fun _ => rfl⟩
  · exact ⟨.transposed, fun _ => rfl⟩

/-- Settles O40: both commands are a character write, whose cursor is that of the advance. -/
theorem cursorAdvance : Obligations.CursorAdvance := by
  intro s code scale hcode i hi
  obtain ⟨o, hexec⟩ := exec_eq_putChar hi
  exact ⟨putChar o code scale s, hexec s, (cursor_putChar hcode o scale s).trans (cursor_advanceCursor scale s)⟩

/-- What the cursor is after `n` characters at scale 1 from the origin. -/
def scaleOneCursor (n : Nat) : Int × Int :=
  if n = 84 then (0, 0) else (6 * ((n % 14 : Nat) : Int), 8 * ((n / 14 : Nat) : Int))

/-- The next character goes 6 columns further; the 14th of a line reaches column 84, and the 84th row 48. -/
theorem cursor_advanceCursor_one {s : State} {n : Nat} (hn : n < 84) (hs : cursor s = scaleOneCursor n) :
    cursor (advanceCursor 1 s) = scaleOneCursor (n + 1) := by
  rw [cursor_advanceCursor, hs, scaleOneCursor, if_neg hn.ne, scaleOneCursor]
  split_ifs <;> simp only [Prod.mk.injEq] <;> omega

/-- Settles O50, by induction on the text, whose last character goes where the ones before it left the cursor. -/
theorem scaleOneTextVisitsSixLinesOfFourteen : Obligations.ScaleOneTextVisitsSixLinesOfFourteen := by
  intro s codes o hs hcodes hlen
  change _ = scaleOneCursor codes.length
  induction codes using List.reverseRecOn with
  | nil => exact hs
  | append_singleton codes code ih =>
    rw [List.length_append, List.length_singleton] at hlen ⊢
    have hbefore := ih (fun c hc => hcodes c (List.mem_append_left _ hc)) (by omega)
    rw [List.foldl_append, List.foldl_cons, List.foldl_nil, cursor_putChar (hcodes code (by simp))]
    exact cursor_advanceCursor_one hlen hbefore

/-! ## The cell (42_text_engine.md R80 to R83) -/

@[simp] theorem cellWidth_normal (scale : Nat) : cellWidth .normal scale = 5 * scale := rfl
@[simp] theorem cellWidth_transposed (scale : Nat) : cellWidth .transposed scale = 7 * scale := rfl
@[simp] theorem cellHeight_normal (scale : Nat) : cellHeight .normal scale = 7 * scale := rfl
@[simp] theorem cellHeight_transposed (scale : Nat) : cellHeight .transposed scale = 5 * scale := rfl

theorem cellDots_zero (o : Orientation) (g : Glyph) (cx cy : Int) : cellDots o g 0 cx cy = [] := by
  cases o <;> rfl

/-- R80 with the division of the display's coordinates. -/
theorem cellBit_normal (g : Glyph) (scale : Nat) {x y : Int} (hx : 0 ≤ x) (hy : 0 ≤ y) :
    cellBit .normal g scale x.toNat y.toNat = (glyphColumn g (x / scale).toNat).getLsbD (y / scale).toNat := by
  lift x to Nat using hx
  lift y to Nat using hy
  rfl

/-- R82 with the division of the display's coordinates. -/
theorem cellBit_transposed (g : Glyph) (scale : Nat) {x y : Int} (hx : 0 ≤ x) (hy : 0 ≤ y) :
    cellBit .transposed g scale x.toNat y.toNat =
      (glyphColumn g (4 - y / scale).toNat).getLsbD (x / scale).toNat := by
  lift x to Nat using hx
  lift y to Nat using hy
  have hcol : (4 - (y : Int) / scale).toNat = 4 - y / scale := by
    rw [← Int.natCast_div]
    omega
  rw [hcol]
  rfl

/-- A cell is clipped when it is not empty and not all on the display: its first or its last dot is off it then. -/
theorem clipped_cellDots (o : Orientation) (g : Glyph) (scale : Nat) (cx cy : Int) :
    clipped (cellDots o g scale cx cy) = true ↔ 1 ≤ scale ∧
      ¬ (0 ≤ cx ∧ cx + cellWidth o scale ≤ 84 ∧ 0 ≤ cy ∧ cy + cellHeight o scale ≤ 48) := by
  have hpos : 1 ≤ scale ↔ 0 < cellWidth o scale ∧ 0 < cellHeight o scale := by
    cases o <;>
      simp only [cellWidth_normal, cellHeight_normal, cellWidth_transposed, cellHeight_transposed] <;> omega
  rw [hpos]
  constructor
  · intro h
    obtain ⟨d, hd, hoff⟩ := clipped_eq_true_iff.1 h
    obtain ⟨x, hx, y, hy, rfl⟩ := mem_cellDots.1 hd
    rw [inBounds_eq_false_iff] at hoff
    dsimp only at hoff
    omega
  · rintro ⟨⟨hw, hh⟩, hoff⟩
    by_contra hin
    rw [Bool.not_eq_true, clipped_eq_false_iff] at hin
    have hfirst := inBounds_iff.1 (hin _ (mem_cellDots.2 ⟨0, hw, 0, hh, rfl⟩))
    have hlast := inBounds_iff.1 (hin _ (mem_cellDots.2 ⟨_, Nat.sub_one_lt hw.ne', _, Nat.sub_one_lt hh.ne', rfl⟩))
    dsimp only at hfirst hlast
    omega

/-! ## The state after a character write (42_text_engine.md R81, R83) -/

theorem OnlyPictureAndCursorChanged.of_fields_eq {s t : State} (hgram : t.gram = s.gram) (hvalid : t.gvalid = s.gvalid)
    (hbusy : t.busy = s.busy) (hill : t.errIll = s.errIll) (htx : t.tx = s.tx) (hin : t.inputs = s.inputs) :
    OnlyPictureAndCursorChanged s t := by
  rw [OnlyPictureAndCursorChanged, ← hgram, ← hvalid, ← hbusy, ← hill, ← htx, ← hin]

theorem onlyPictureAndCursorChanged_putChar (o : Orientation) (code scale : Nat) (s : State) :
    OnlyPictureAndCursorChanged s (putChar o code scale s) :=
  .of_fields_eq (putChar_gram ..) (putChar_gvalid ..) (putChar_busy ..) (putChar_errIll ..) (putChar_tx ..)
    (putChar_inputs ..)

theorem putChar_fb {o : Orientation} {code scale : Nat} {s : State} {g : Glyph} (hg : glyphLookup code s = some g) :
    (putChar o code scale s).fb = (plotAll (cellDots o g scale (cursor s).1 (cursor s).2) s).fb := by
  rw [putChar_of_some hg, advanceCursor_fb]
  rfl

theorem putChar_errOob {o : Orientation} {code scale : Nat} {s : State} {g : Glyph} (hg : glyphLookup code s = some g) :
    (putChar o code scale s).errOob = (s.errOob || clipped (cellDots o g scale (cursor s).1 (cursor s).2)) := by
  rw [putChar_of_some hg, advanceCursor_errOob, plotAll_errOob_clipped]
  rfl

theorem pixel_congr {s t : State} (h : s.fb = t.fb) (a b : Int) : pixel a b s = pixel a b t := by
  rw [pixel, pixel, h]

/-- On the display, the cell shows the glyph and everything outside it what it showed. -/
theorem pixel_putChar {s : State} (hs : Memory.wf 504 s.fb = true) {o : Orientation} {code scale : Nat} {g : Glyph}
    {cx cy : Int} (hg : glyphLookup code s = some g) (hcursor : cursor s = (cx, cy)) {a b : Int}
    (hab : inBounds a b = true) :
    pixel a b (putChar o code scale s) =
      if cx ≤ a ∧ a < cx + cellWidth o scale ∧ cy ≤ b ∧ b < cy + cellHeight o scale then
        cellBit o g scale (a - cx).toNat (b - cy).toNat
      else pixel a b s := by
  rw [pixel_congr (putChar_fb hg), hcursor]
  split_ifs with hcell
  · obtain ⟨ha, ha', hb, hb'⟩ := hcell
    exact pixel_plotAll_cellDots_inside hs hab ⟨ha, ha'⟩ ⟨hb, hb'⟩
  · exact pixel_plotAll_cellDots_outside hs (by rwa [and_assoc])

theorem putChar_errOob_iff {o : Orientation} {code scale : Nat} {s : State} {g : Glyph} {cx cy : Int}
    (hg : glyphLookup code s = some g) (hcursor : cursor s = (cx, cy)) :
    (putChar o code scale s).errOob = true ↔ s.errOob = true ∨
      (1 ≤ scale ∧ ¬ (0 ≤ cx ∧ cx + cellWidth o scale ≤ 84 ∧ 0 ≤ cy ∧ cy + cellHeight o scale ≤ 48)) := by
  rw [putChar_errOob hg, hcursor, Bool.or_eq_true, clipped_cellDots]

theorem cursor_putChar_of_some {o : Orientation} {code scale : Nat} {s : State} {g : Glyph} {cx cy : Int}
    (hg : glyphLookup code s = some g) (hcursor : cursor s = (cx, cy)) :
    cursor (putChar o code scale s) =
      if cx + 5 * scale + 1 ≥ 84 then (0, if cy + 7 * scale + 1 ≥ 48 then 0 else cy + 7 * scale + 1)
      else (cx + 5 * scale + 1, cy) := by
  rw [cursor_putChar (lt_of_glyphLookup_eq_some hg), cursor_advanceCursor, hcursor]

/-- Settles O41: the laws of a character write, with the cell and the bit of the normal orientation. -/
theorem writeCharResult : Obligations.WriteCharResult := by
  intro s code scale hs
  refine ⟨fun hnone => congrArg Host.Outcome.next (putChar_of_none hnone), fun g cx cy hg hcursor => ?_⟩
  refine ⟨putChar .normal code scale s, rfl, onlyPictureAndCursorChanged_putChar _ code scale s,
    fun a b ha ha' hb hb' => ?_, ?_, cursor_putChar_of_some hg hcursor, by decide⟩
  · rw [pixel_putChar hs hg hcursor (inBounds_iff.2 ⟨ha, ha', hb, hb'⟩)]
    push_cast [cellWidth_normal, cellHeight_normal]
    refine ite_congr rfl (fun hcell => ?_) fun _ => rfl
    exact cellBit_normal g scale (by omega) (by omega)
  · simpa using putChar_errOob_iff (o := .normal) (scale := scale) hg hcursor

/-- Settles O42: the laws of a character write, with the cell and the bit of the turned orientation. -/
theorem writeCharOppResult : Obligations.WriteCharOppResult := by
  intro s code scale hs
  refine ⟨fun hnone => congrArg Host.Outcome.next (putChar_of_none hnone), fun g cx cy hg hcursor => ?_⟩
  refine ⟨putChar .transposed code scale s, rfl, onlyPictureAndCursorChanged_putChar _ code scale s,
    fun a b ha ha' hb hb' => ?_, ?_, cursor_putChar_of_some hg hcursor, by decide⟩
  · rw [pixel_putChar hs hg hcursor (inBounds_iff.2 ⟨ha, ha', hb, hb'⟩)]
    push_cast [cellWidth_transposed, cellHeight_transposed]
    refine ite_congr rfl (fun hcell => ?_) fun _ => rfl
    exact cellBit_transposed g scale (by omega) (by omega)
  · simpa using putChar_errOob_iff (o := .transposed) (scale := scale) hg hcursor

/-! ## Rejected codes and the extreme scales (42_text_engine.md R85, R86) -/

/-- Settles O43: a rejected code has no glyph; its words decode because their operands are in range. -/
theorem rejectedCodesChangeNothing : Obligations.RejectedCodesChangeNothing := by
  intro s code scale hcode
  have hnone : glyphLookup code s = none := glyphLookup_eq_none_iff.2 hcode
  refine ⟨congrArg Host.Outcome.next (putChar_of_none hnone), congrArg Host.Outcome.next (putChar_of_none hnone),
    fun hcode' hscale => ?_⟩
  have hoperands : (isU8 code && isU8 scale) = true := by simp [isU8, hcode', hscale]
  exact ⟨encodeThenDecodeGivesTheCommand (.writeChar code scale) hoperands,
    encodeThenDecodeGivesTheCommand (.writeCharOpp code scale) hoperands⟩

/-- At scale 0 the cell is empty: only the advance is left. -/
theorem putChar_scale_zero {code : Nat} (hcode : code < 0x80) (o : Orientation) (s : State) :
    putChar o code 0 s = advanceCursor 0 s := by
  obtain ⟨g, hg⟩ := exists_glyphLookup_of_lt hcode s
  rw [putChar_of_some hg, cellDots_zero, plotAll_nil]

theorem advanceCursor_eq (scale : Nat) (s : State) :
    advanceCursor scale s =
      { s with cursorX := (advanceCursor scale s).cursorX, cursorY := (advanceCursor scale s).cursorY } := by
  unfold advanceCursor
  extract_lets
  split_ifs <;> rfl

/-- Settles O44: at scale 0 a character write is the advance, by 1 column and by 1 row. -/
theorem scaleZeroOnlyMovesTheCursor : Obligations.ScaleZeroOnlyMovesTheCursor := by
  intro s code hcode i hi
  obtain ⟨o, hexec⟩ := exec_eq_putChar hi
  refine ⟨advanceCursor 0 s, by rw [hexec, putChar_scale_zero hcode], advanceCursor_eq 0 s, ?_⟩
  simpa using cursor_advanceCursor 0 s

/-- A byte of FB is determined by the pixels of its page column. -/
theorem read_fb_eq_of_pixel_eq {s : State} {v : Bool} (h : ∀ x y, inBounds x y = true → pixel x y s = v) {a : Nat}
    (ha : a < 504) : Memory.read s.fb a = if v then 0xFF else 0x00 := by
  refine BitVec.eq_of_getLsbD_eq fun k hk => ?_
  obtain ⟨x, y, hin, rfl, rfl⟩ := exists_pixel_of_bit ha hk
  rw [← pixel_of_inBounds hin, h x y hin]
  cases v
  · exact BitVec.getLsbD_zero.symm
  · exact (BitVec.getLsbD_allOnes.trans (decide_eq_true hk)).symm

/-- Settles O45: at scale 255 the display lies inside the first column and the first row of the glyph's cell. -/
theorem largestScaleFillsTheDisplay : Obligations.LargestScaleFillsTheDisplay := by
  intro s code g hs hg hcursor
  obtain ⟨t, hexec, -, hpixel, hoob, hcur, -⟩ := (writeCharResult s code 255 hs).2 g 0 0 hg hcursor
  refine ⟨t, hexec, fun a ha => read_fb_eq_of_pixel_eq (fun x y hin => ?_) ha, hoob.2 (by simp), by simpa using hcur⟩
  obtain ⟨hx, hx', hy, hy'⟩ := inBounds_iff.1 hin
  have hcol : (x - 0) / 255 = 0 := by omega
  have hrow : (y - 0) / 255 = 0 := by omega
  rw [hpixel x y hx hx' hy hy', if_pos (by omega), Nat.cast_ofNat, hcol, hrow]
  rfl

end Sys2Proof.Machine
end

