-- ==== Sys2Proof/Proofs/Registration.lean ====
section
/-! PROOFS. REGISTER_GLYPH, and the bit of a glyph byte that is stored but never drawn (42_text_engine.md R88, R89). -/

namespace Sys2Proof.Machine

/-! ## REGISTER_GLYPH (42_text_engine.md R88) -/

/-- Settles O46, by the two arms of a registration. -/
theorem registerGlyphResult : Obligations.RegisterGlyphResult := by
  intro s code g hs
  rcases Nat.lt_or_ge code 0x20 with hcode | hcode
  · refine ⟨storeGlyph code g s, exec_registerGlyph_of_lt hcode g s, fun _ => ?_,
      fun h => absurd h (Nat.not_le.2 hcode), by decide⟩
    exact ⟨rfl, gramGlyph_storeGlyph_same hs hcode g, fun a ha => read_writeGlyphBytes_other ha s.gram g,
      fun c _ => getLsbD_storeGlyph_gvalid hcode g s c⟩
  · exact ⟨s, exec_registerGlyph_of_ge hcode g s, fun h => absurd h (Nat.not_lt.2 hcode), fun _ => rfl, by decide⟩

/-! ## Bit 7 of a glyph byte (42_text_engine.md R89) -/

/-- Inside its cell a glyph is drawn by bits 0 to 6 of columns 0 to 4. -/
theorem cellBit_eq_of_low_bits_eq {g g' : Glyph}
    (h : ∀ col < 5, ∀ k < 7, (glyphColumn g col).getLsbD k = (glyphColumn g' col).getLsbD k) {o : Orientation}
    {scale x y : Nat} (hx : x < cellWidth o scale) (hy : y < cellHeight o scale) :
    cellBit o g scale x y = cellBit o g' scale x y := by
  cases o with
  | normal =>
    have hcol : x / scale < 5 := Nat.div_lt_of_lt_mul (hx.trans_eq (mul_comm 5 scale))
    have hrow : y / scale < 7 := Nat.div_lt_of_lt_mul (hy.trans_eq (mul_comm 7 scale))
    exact h _ hcol _ hrow
  | transposed =>
    have hcol : 4 - y / scale < 5 := Nat.lt_succ_of_le (Nat.sub_le 4 _)
    have hrow : x / scale < 7 := Nat.div_lt_of_lt_mul (hx.trans_eq (mul_comm 7 scale))
    exact h _ hcol _ hrow

theorem cellDots_eq_of_low_bits_eq {g g' : Glyph}
    (h : ∀ col < 5, ∀ k < 7, (glyphColumn g col).getLsbD k = (glyphColumn g' col).getLsbD k) (o : Orientation)
    (scale : Nat) (cx cy : Int) : cellDots o g scale cx cy = cellDots o g' scale cx cy := by
  refine List.flatMap_congr fun x hx => List.map_congr_left fun y hy => ?_
  rw [cellBit_eq_of_low_bits_eq h (List.mem_range.1 hx) (List.mem_range.1 hy)]

/-- Glyphs with the same dots, looked up in states that differ in the glyph store, leave states that differ in it alone. -/
theorem putChar_withGram {o : Orientation} {code scale : Nat} {s : State} {m : Memory} {g g' : Glyph}
    (hg : glyphLookup code s = some g) (hg' : glyphLookup code (withGram m s) = some g')
    (hdots : ∀ cx cy, cellDots o g scale cx cy = cellDots o g' scale cx cy) :
    putChar o code scale (withGram m s) = withGram m (putChar o code scale s) := by
  rw [putChar_of_some hg, putChar_of_some hg', hdots, ← advanceCursor_withGram, ← plotAll_withGram]
  rfl

theorem gramGlyph_putChar (o : Orientation) (code scale slot : Nat) (s : State) :
    gramGlyph slot (putChar o code scale s) = gramGlyph slot s := by
  simp [gramGlyph]

/-- Settles O48: the same dots, so the two states after the writes differ in the glyph store alone, as before them. -/
theorem glyphBitSevenIsNeverDrawn : Obligations.GlyphBitSevenIsNeverDrawn := by
  refine ⟨fun o g g' scale cx cy h => cellDots_eq_of_low_bits_eq h o scale cx cy, ?_⟩
  intro s t t' code scale g g' hs hcode hbits ht ht' i hi
  rw [exec_registerGlyph_of_lt hcode] at ht ht'
  obtain rfl := Host.Outcome.next.inj ht
  obtain rfl := Host.Outcome.next.inj ht'
  obtain ⟨o, hexec⟩ := exec_eq_putChar hi
  have hwrite : putChar o code scale (storeGlyph code g' s) =
      withGram (writeGlyphBytes s.gram code g') (putChar o code scale (storeGlyph code g s)) :=
    putChar_withGram (glyphLookup_storeGlyph_same hs hcode g) (glyphLookup_storeGlyph_same hs hcode g')
      (cellDots_eq_of_low_bits_eq hbits o scale)
  refine ⟨_, _, hexec _, hexec _, ?_, ?_, ?_⟩
  · rw [hwrite]
    rfl
  · rw [gramGlyph_putChar, gramGlyph_storeGlyph_same hs hcode]
  · rw [gramGlyph_putChar, gramGlyph_storeGlyph_same hs hcode]

end Sys2Proof.Machine
end

