-- ==== Sys2Proof/Proofs/Serializer.lean ====
section
/-! PROOFS. RENDER: the items it appends, and what a display that receives them shows (43_serializer.md R91 to R97). -/

namespace Sys2Proof.Machine

/-! ## The items (43_serializer.md R91, R93) -/

theorem length_renderItems (fb : Memory) : (renderItems fb).length = 506 := by
  simp [renderItems]

/-- Item `2 + i` carries byte `i` of the array. -/
theorem getElem?_renderItems (fb : Memory) {i : Nat} (hi : i < 504) :
    (renderItems fb)[2 + i]? = some ⟨true, Memory.read fb i⟩ := by
  simp [renderItems, Nat.add_comm 2 i, hi]

/-- Settles O51: RENDER keeps the array, so the second one appends the items of the same array. -/
theorem renderAppends506Items : Obligations.RenderAppends506Items := by
  intro s
  refine ⟨emitAll (renderItems s.fb) s, renderItems s.fb, rfl, rfl, length_renderItems s.fb, rfl, rfl, ?_, rfl, rfl⟩
  exact fun i hi => getElem?_renderItems s.fb hi

/-! ## The display behind the stream (43_serializer.md R97) -/

/-- The display has received the first `n` bytes of the array and waits for the next one. -/
structure ReceivedBytes (fb : Memory) (n : Nat) (d : Display) : Prop where
  page : d.page = n / 84
  col : d.col = n % 84
  wf : Memory.wf 504 d.glass = true
  read : ∀ a < n, Memory.read d.glass a = Memory.read fb a

/-- The two positioning commands bring the write position to byte 0, also if their bytes should be equal. -/
theorem receivedBytes_zero (fb : Memory) {d : Display} (hd : Memory.wf 504 d.glass = true) :
    ReceivedBytes fb 0 (displayReceive (displayReceive d ⟨false, Config.cmdSetCol0⟩) ⟨false, Config.cmdSetRow0⟩) where
  page := by simp [displayReceive]
  col := by simp [displayReceive]
  wf := hd
  read := fun a ha => absurd ha (Nat.not_lt_zero a)

/-- The next byte is stored at its own index, and the write position moves on by one. -/
theorem ReceivedBytes.succ {fb : Memory} {n : Nat} {d : Display} (h : ReceivedBytes fb n d) (hn : n < 504) :
    ReceivedBytes fb (n + 1) (displayReceive d ⟨true, Memory.read fb n⟩) := by
  obtain ⟨hpage, hcol, hwf, hread⟩ := h
  have hat : d.page * 84 + d.col = n := by omega
  constructor
  case page =>
    simp only [displayReceive, if_true]
    split <;> omega
  case col =>
    simp only [displayReceive, if_true]
    split <;> omega
  case wf =>
    simp only [displayReceive, if_true, hat]
    exact Memory.wf_write hwf hn _
  case read =>
    intro a ha
    simp only [displayReceive, if_true, hat, Memory.read_write hwf]
    split
    · rename_i hlast
      rw [hlast]
    · exact hread a (by omega)

theorem receivedBytes_foldl {fb : Memory} {d : Display} (h : ReceivedBytes fb 0 d) {n : Nat} (hn : n ≤ 504) :
    ReceivedBytes fb n (((List.range n).map fun i => ⟨true, Memory.read fb i⟩).foldl displayReceive d) := by
  induction n with
  | zero => exact h
  | succ n ih =>
    rw [List.range_succ, List.map_append, List.foldl_append]
    exact (ih (by omega)).succ hn

theorem receivedBytes_renderItems (fb : Memory) {d : Display} (hd : Memory.wf 504 d.glass = true) :
    ReceivedBytes fb 504 ((renderItems fb).foldl displayReceive d) := by
  rw [renderItems, List.foldl_cons, List.foldl_cons]
  exact receivedBytes_foldl (receivedBytes_zero fb hd) le_rfl

/-- A display that received all 504 bytes shows the array. -/
theorem ReceivedBytes.displayLit_eq_pixel {s : State} {d : Display} (h : ReceivedBytes s.fb 504 d) {x y : Nat}
    (hx : x < 84) (hy : y < 48) : displayLit d x y = pixel x y s := by
  have hin : inBounds (x : Int) (y : Int) = true := inBounds_iff.2 (by omega)
  have hread := h.read (y / 8 * 84 + x) (by omega)
  simp [displayLit, pixel, hin, fbIndex, fbBit, hread]

/-- Settles O52: the 504 bytes of a RENDER fill the glass in order from byte 0. -/
theorem displayShowsTheArrayAfterRender : Obligations.DisplayShowsTheArrayAfterRender := by
  intro s t d _ hglass hrender x y hx hy
  have hitems : t.tx.drop s.tx.length = renderItems s.fb := by
    rw [exec_tx hrender, List.drop_left]
    rfl
  rw [hitems]
  exact (receivedBytes_renderItems s.fb hglass).displayLit_eq_pixel hx hy

end Sys2Proof.Machine
end

