-- ==== Sys2Proof/Proofs/HandOver.lean ====
section
/-! PROOFS. The hand-over of stream items at the ports: a consumer that takes them lets every command complete, one that
takes none stalls the block (43_serializer.md R96, 70_reset_and_hazards.md R121, R125). -/

namespace Sys2Proof.Machine

/-! ## One cycle of a command in progress -/

theorem portContinue_of_stalled {j : PortIn} {p : PortState} (hready : j.txReady = false) (hsending : p.sending ≠ []) :
    portContinue j p = { p with cycle := p.cycle + 1 } := by
  obtain ⟨item, rest, hcons⟩ := List.exists_cons_of_ne_nil hsending
  simp [portContinue, hcons, hready]

theorem portContinue_of_sent {p : PortState} (j : PortIn) (hsending : p.sending = []) :
    portContinue j p = if p.wait = 0 then { p with core := complete p.core, cycle := p.cycle + 1 }
      else { p with wait := p.wait - 1, cycle := p.cycle + 1 } := by
  simp [portContinue, hsending]

/-- A taken item is one item less; the cycles to wait never become more. -/
theorem portContinue_progress (j : PortIn) (p : PortState) :
    (portContinue j p).sending.length ≤ p.sending.length - (if j.txReady then 1 else 0) ∧
    (portContinue j p).wait ≤ p.wait := by
  unfold portContinue
  split
  · rename_i item rest hcons
    cases hready : j.txReady <;> simp [hcons]
  · rename_i hnil
    split <;> simp [hnil]

/-! ## A consumer that takes nothing (43_serializer.md R96) -/

/-- Settles O57, by induction on the cycles: a stalled cycle changes nothing but the number of the cycle. -/
theorem stalledConsumerStallsTheBlock : Obligations.StalledConsumerStallsTheBlock := by
  intro p js hbusy hsending hjs
  induction js generalizing p with
  | nil => exact ⟨rfl, rfl⟩
  | cons j js ih =>
    obtain ⟨hrst, hready⟩ := hjs j List.mem_cons_self
    have hcycle : portCycle j p = { p with cycle := p.cycle + 1 } :=
      (portCycle_of_busy hrst hbusy).trans (portContinue_of_stalled hready hsending)
    have hrun : portRun (j :: js) p = portRun js { p with cycle := p.cycle + 1 } := congrArg (portRun js) hcycle
    rw [hrun]
    exact ih { p with cycle := p.cycle + 1 } hbusy hsending fun k hk => hjs k (List.mem_cons_of_mem _ hk)

/-! ## A consumer that takes the items (43_serializer.md R96, 70_reset_and_hazards.md R125) -/

theorem length_commandItems_le (i : Instr) (s : State) : (commandItems i s).length ≤ 506 := by
  by_cases hi : i = .render
  · rw [hi]
    exact (length_renderItems s.fb).le
  · simp [commandItems_of_ne_render hi]

/-- An accepted word, legal or not, appends at most the items of one RENDER. -/
theorem length_tx_executeWord_le {w : CmdWord} {s t : State} (h : executeWord w s = .next t) :
    t.tx.length ≤ s.tx.length + 506 := by
  cases hdec : decode w with
  | ok i =>
    rw [executeWord_of_decode_ok hdec] at h
    rw [exec_tx h, List.length_append]
    exact Nat.add_le_add_left (length_commandItems_le i s) _
  | error e =>
    rw [executeWord_of_decode_error hdec] at h
    rw [← Host.Outcome.next.inj h, raise_tx]
    omega

theorem portAccept_sending_wait (w : CmdWord) (p : PortState) :
    (portAccept w p).sending.length ≤ 506 ∧ (portAccept w p).wait = Config.busyCycles p.cycle := by
  obtain ⟨t, new, ht, -, -⟩ := executeWord_next w (accept [] p.core)
  have hlen := length_tx_executeWord_le ht
  rw [accept_tx] at hlen
  simp only [portAccept, ht, List.length_drop, and_true]
  omega

/-- Cycles without reset and without a word hand over as many items as the consumer takes, if so many are left. -/
theorem HeadingFor.portRun_progress {t : State} {p : PortState} (h : HeadingFor t p) {js : List PortIn}
    (hjs : ∀ j ∈ js, j.rst = false ∧ j.cmdValid = false) :
    (portRun js p).sending.length ≤ p.sending.length - js.countP (fun j => j.txReady) ∧
    (portRun js p).wait ≤ p.wait := by
  induction js generalizing p with
  | nil => exact ⟨le_rfl, le_rfl⟩
  | cons j js ih =>
    obtain ⟨hrst, hvalid⟩ := hjs j List.mem_cons_self
    have hcycle : (portCycle j p).sending.length ≤ p.sending.length - (if j.txReady then 1 else 0) ∧
        (portCycle j p).wait ≤ p.wait := by
      cases hbusy : p.core.busy
      · rw [portCycle_of_idle hrst hbusy hvalid]
        simp [h.2 hbusy]
      · rw [portCycle_of_busy hrst hbusy]
        exact portContinue_progress j p
    obtain ⟨hsending, hwait⟩ := ih (headingFor_portCycle h hrst hvalid) fun k hk => hjs k (List.mem_cons_of_mem _ hk)
    rw [List.countP_cons]
    exact ⟨hsending.trans (by omega), hwait.trans hcycle.2⟩

/-- With every item handed over, the block is idle once more cycles than it had to wait have passed. -/
theorem portRun_idle_of_sent {p : PortState} {js : List PortIn} (hsending : p.sending = [])
    (hjs : ∀ j ∈ js, j.rst = false ∧ j.cmdValid = false) (hwait : p.core.busy = true → p.wait < js.length) :
    (portRun js p).core.busy = false := by
  induction js generalizing p with
  | nil => exact Bool.eq_false_of_not_eq_true fun hbusy => absurd (hwait hbusy) (Nat.not_lt_zero _)
  | cons j js ih =>
    obtain ⟨hrst, hvalid⟩ := hjs j List.mem_cons_self
    have hjs' : ∀ k ∈ js, k.rst = false ∧ k.cmdValid = false := fun k hk => hjs k (List.mem_cons_of_mem _ hk)
    suffices hnext : (portCycle j p).sending = [] ∧
        ((portCycle j p).core.busy = true → (portCycle j p).wait < js.length) from ih hnext.1 hjs' hnext.2
    cases hbusy : p.core.busy
    · rw [portCycle_of_idle hrst hbusy hvalid]
      exact ⟨hsending, by simp [hbusy]⟩
    · have hlen := hwait hbusy
      rw [List.length_cons] at hlen
      rw [portCycle_of_busy hrst hbusy, portContinue_of_sent j hsending]
      split
      · exact ⟨hsending, by simp⟩
      · have hless : p.wait - 1 < js.length := by omega
        exact ⟨hsending, fun _ => hless⟩

/-- Settles O56: the taking cycles hand over all of at most 506 items, the cycles after them outlast the wait, and the
block, on its way to the state `step` gives ever since it accepted the word, is then idle. -/
theorem commandsCompleteIfTheConsumerTakesItems : Obligations.CommandsCompleteIfTheConsumerTakesItems := by
  intro p i taking rest t hbusy _ hrst hvalid hjs htaking hrest hstep
  have htakingQuiet : ∀ j ∈ taking, j.rst = false ∧ j.cmdValid = false := fun j hj =>
    hjs j (List.mem_append_left _ hj)
  have hrestQuiet : ∀ j ∈ rest, j.rst = false ∧ j.cmdValid = false := fun j hj =>
    hjs j (List.mem_append_right _ hj)
  have hstart : HeadingFor t (portAccept i.cmdData p) := headingFor_portAccept hbusy hstep
  have hrun : portRun (i :: (taking ++ rest)) p = portRun rest (portRun taking (portAccept i.cmdData p)) := by
    simp [portRun, portCycle_of_accept hrst hbusy hvalid]
  obtain ⟨haccepted, hwait⟩ := portAccept_sending_wait i.cmdData p
  obtain ⟨hleft, hwaitLeft⟩ := hstart.portRun_progress htakingQuiet
  have hsent : (portRun taking (portAccept i.cmdData p)).sending = [] := List.eq_nil_of_length_eq_zero (by omega)
  have harrives := headingFor_portRun (headingFor_portRun hstart htakingQuiet) hrestQuiet
  rw [hrun]
  exact harrives.core_eq (portRun_idle_of_sent hsent hrestQuiet fun _ => by omega)

end Sys2Proof.Machine
end

