-- ==== Sys2Proof/Proofs/Exceptions.lean ====
section
/-! PROOFS. No condition stops the block: an illegal word only sets its flag, and every step answers a next state
(60_exceptions.md R98, R102). -/

namespace Sys2Proof.Machine

/-! ## An illegal word (60_exceptions.md R102) -/

theorem exists_decode_error {w : CmdWord} (h : ∀ i, decode w ≠ .ok i) : ∃ e, decode w = .error e := by
  cases hdec : decode w with
  | ok i => exact absurd hdec (h i)
  | error e => exact ⟨e, rfl⟩

/-- To an idle block, accepting an illegal word and completing it changes the flag and what the host does next. -/
theorem complete_raise_illegalWord_accept {s : State} (hbusy : s.busy = false) (rest : List HostEvent) :
    complete (raise .illegalWord (accept rest s)) = { s with inputs := rest, errIll := true } := by
  rw [hbusy]
  rfl

/-- Settles O7: the accepted word decodes to an error, whose effect is the flag, and completion clears BUSY again. -/
theorem illegalWordOnlySetsErrIll : Obligations.IllegalWordOnlySetsErrIll := by
  intro s w rest hin hbusy hillegal
  obtain ⟨e, hdec⟩ := exists_decode_error hillegal
  have hready : cmdReady { s with inputs := rest, errIll := true } = true := by simp [cmdReady, hbusy]
  refine ⟨?_, hready⟩
  calc step s
    _ = completed (executeWord w (accept rest s)) := step_of_word hin hbusy
    _ = .next (complete (raise .illegalWord (accept rest s))) :=
      congrArg completed (executeWord_of_decode_error hdec (accept rest s))
    _ = .next { s with inputs := rest, errIll := true } := congrArg _ (complete_raise_illegalWord_accept hbusy rest)

/-! ## Every step answers (60_exceptions.md R98) -/

/-- A word presented while BUSY is 1 waits (70_reset_and_hazards.md R121). -/
theorem step_of_word_busy {s : State} {w : CmdWord} {rest : List HostEvent} (hin : s.inputs = .word w :: rest)
    (hbusy : s.busy = true) : step s = .next s := by
  simp [step, nextEvent, hin, cmdReady, hbusy]

theorem step_next (s : State) : ∃ t, step s = .next t := by
  cases hin : s.inputs with
  | nil => exact ⟨s, step_of_nil hin⟩
  | cons act rest =>
    cases act with
    | reset => exact ⟨resetBlock rest, step_of_reset hin⟩
    | word w =>
      cases hbusy : s.busy
      · obtain ⟨u, -, hu, -, -⟩ := executeWord_next w (accept rest s)
        exact ⟨complete u, by rw [step_of_word hin hbusy, hu, completed]⟩
      · exact ⟨s, step_of_word_busy hin hbusy⟩

/-- A step that waits leaves readiness as it is; reset and completion leave the block ready. -/
theorem cmdReady_step {s t : State} (hstep : step s = .next t) (hready : cmdReady s = true) : cmdReady t = true := by
  obtain ⟨-, rfl⟩ | ⟨rest, -, rfl⟩ | ⟨w, rest, -, -, rfl⟩ | ⟨w, rest, i, u, -, -, -, -, rfl⟩ |
    ⟨w, rest, e, -, -, -, rfl⟩ := step_cases hstep
  · exact hready
  · rfl
  · exact hready
  · rfl
  · rfl

/-- Settles O13: no command and no illegal word stops, and what a step can do keeps the block ready. -/
theorem everyStepAnswersANextState : Obligations.EveryStepAnswersANextState := by
  intro s
  obtain ⟨t, hstep⟩ := step_next s
  exact ⟨t, hstep, cmdReady_step hstep⟩

end Sys2Proof.Machine
end

