-- ==== Sys2Proof/Proofs/Hazards.lean ====
section
/-! PROOFS. Reset, the block's waiting, and the work each command makes (70_reset_and_hazards.md R111 to R125). -/

namespace Sys2Proof.Machine

/-! ## Waiting and reset (70_reset_and_hazards.md R111, R112, R121) -/

/-- Settles O8: the two laws of a step that waits, for no act of the host and for a word at a busy block. -/
theorem stepWaitsWithoutAWordOrWhileBusy : Obligations.StepWaitsWithoutAWordOrWhileBusy :=
  ⟨fun _ hin => step_of_nil hin, fun _ _ _ hin hbusy => step_of_word_busy hin hbusy⟩

/-- Settles O9: the law of a step whose act is reset asks nothing of BUSY. -/
theorem resetEventGivesTheResetState : Obligations.ResetEventGivesTheResetState :=
  fun _ _ hin => step_of_reset hin

/-! ## The number of plots (70_reset_and_hazards.md R125) -/

theorem length_setDots (points : List (Int × Int)) : (setDots points).length = points.length :=
  List.length_map _

/-- Each edge of a rectangle moves along one coordinate only. -/
theorem length_rectPoints (x1 y1 x2 y2 : Int) :
    (rectPoints x1 y1 x2 y2).length = 2 * ((x2 - x1).natAbs + 1) + 2 * ((y2 - y1).natAbs + 1) := by
  simp only [rectPoints, List.length_append, length_linePoints, lineSteps]
  omega

theorem length_circlePoints (x0 y0 r : Int) : (circlePoints x0 y0 r).length = 8 * (circleTrace r).length := by
  have hoctants : ∀ v : Int × Int × Int, (octantPoints x0 y0 v.1 v.2.1).length = 8 := fun _ => rfl
  simp [circlePoints, List.length_flatMap, hoctants, mul_comm]

/-- A cell has `5 * scale` by `7 * scale` pixels in the one orientation or the other. -/
theorem length_cellDots (o : Orientation) (g : Glyph) (scale : Nat) (cx cy : Int) :
    (cellDots o g scale cx cy).length = 35 * scale ^ 2 := by
  have harea : (cellDots o g scale cx cy).length = cellWidth o scale * cellHeight o scale := by simp [cellDots]
  rw [harea]
  cases o with
  | normal =>
    rw [cellWidth_normal, cellHeight_normal]
    ring
  | transposed =>
    rw [cellWidth_transposed, cellHeight_transposed]
    ring

theorem length_charDots (o : Orientation) (code scale : Nat) (s : State) :
    (charDots o code scale s).length = if 0x80 ≤ code then 0 else 35 * scale ^ 2 := by
  cases hg : glyphLookup code s with
  | none => simp [charDots, hg, glyphLookup_eq_none_iff.1 hg]
  | some g => simp [charDots, hg, lt_of_glyphLookup_eq_some hg, length_cellDots]

/-! ## Its bounds over the operands that can be encoded (30_encoding.md R49) -/

theorem natAbs_sub_le_of_isI12 {a b : Int} (ha : isI12 a = true) (hb : isI12 b = true) : (b - a).natAbs ≤ 4095 := by
  simp only [isI12, Bool.and_eq_true, decide_eq_true_eq] at ha hb
  omega

/-- A negative radius makes no iteration. -/
theorem length_circleTrace_le_of_isI12 {r : Int} (hr : isI12 r = true) : (circleTrace r).length ≤ 1447 := by
  simp only [isI12, Bool.and_eq_true, decide_eq_true_eq] at hr
  rcases lt_or_ge r 0 with hneg | hnonneg
  · simp [(circleTrace_eq_nil_iff r).2 hneg]
  · exact length_circleTrace_le hnonneg hr.2

theorem length_charDots_le (o : Orientation) (code : Nat) {scale : Nat} (hscale : isU8 scale = true) (s : State) :
    (charDots o code scale s).length ≤ 2275875 := by
  simp only [isU8, decide_eq_true_eq] at hscale
  calc (charDots o code scale s).length
    _ ≤ 35 * scale ^ 2 := by
      rw [length_charDots]
      split_ifs <;> omega
    _ ≤ 35 * 255 ^ 2 := Nat.mul_le_mul_left 35 (Nat.pow_le_pow_left (by omega) 2)
    _ = 2275875 := by norm_num

/-! ## R125, command by command -/

theorem length_commandDots_drawLine (x1 y1 x2 y2 : Int) (s : State) :
    (commandDots (.drawLine x1 y1 x2 y2) s).length = max (x2 - x1).natAbs (y2 - y1).natAbs + 1 :=
  (length_setDots _).trans (length_linePoints x1 y1 x2 y2)

theorem length_commandDots_drawRect (x1 y1 x2 y2 : Int) (s : State) :
    (commandDots (.drawRect x1 y1 x2 y2) s).length = 2 * ((x2 - x1).natAbs + 1) + 2 * ((y2 - y1).natAbs + 1) :=
  (length_setDots _).trans (length_rectPoints x1 y1 x2 y2)

theorem length_commandDots_drawCircle (x0 y0 r : Int) (s : State) :
    (commandDots (.drawCircle x0 y0 r) s).length = 8 * (circleTrace r).length :=
  (length_setDots _).trans (length_circlePoints x0 y0 r)

/-- Settles O38: the bounds follow from the numbers of plots, since two `i12` coordinates differ by at most 4095, a circle
makes at most 1447 iterations, and a scale is at most 255. -/
theorem workPerCommandIsBounded : Obligations.WorkPerCommandIsBounded := by
  refine ⟨fun s x1 y1 x2 y2 => ⟨length_commandDots_drawLine x1 y1 x2 y2 s, length_commandDots_drawRect x1 y1 x2 y2 s,
      fun hwf => ?_⟩,
    fun s x0 y0 r => ⟨length_commandDots_drawCircle x0 y0 r s, fun hwf => ?_⟩,
    fun s code scale => ⟨length_charDots .normal code scale s, length_charDots .transposed code scale s, fun hwf => ?_⟩,
    length_renderItems⟩
  · simp only [Instr.wellFormed, Bool.and_eq_true] at hwf
    obtain ⟨⟨⟨hx1, hy1⟩, hx2⟩, hy2⟩ := hwf
    have hdx := natAbs_sub_le_of_isI12 hx1 hx2
    have hdy := natAbs_sub_le_of_isI12 hy1 hy2
    rw [length_commandDots_drawLine, length_commandDots_drawRect]
    omega
  · simp only [Instr.wellFormed, Bool.and_eq_true] at hwf
    have hiterations := length_circleTrace_le_of_isI12 hwf.2
    rw [length_commandDots_drawCircle]
    omega
  · simp only [Instr.wellFormed, Bool.and_eq_true] at hwf
    exact length_charDots_le .normal code hwf.2 s

end Sys2Proof.Machine
end
